-- ==== Sys2Proof/Config.lean ====
section
/-! DEFINITION. What one implementation fixes, and the values the spec leaves free.
The free values are `opaque` constants without a body: nothing in Lean can evaluate them. -/

namespace Sys2Proof.Config

/-- The LEN_W of `opcode_table.json` and of the block `State.reset` describes: 32, "the recommended value
and the one the examples and `opcode_table.json` use" (R7).  LEN_W itself is open: it is the argument
`w` of the encodings and the field `lenW` of the state, and no meaning uses this constant (log 1). -/
abbrev lenW : Nat := 32

/-- Free values for the staging registers, which RST leaves "unspecified (any values)" (R30, R101).
The argument counts the draws; `State.draws` says how many have been taken (log 2). -/
opaque freeByte : Nat → BitVec 8

/-- What element `i` of the input space holds while nothing has placed a byte there (R41; log 3). -/
opaque initialIn : Nat → BitVec 8

/-- What element `j` of the output space holds while nothing has written it (R42, U15; log 3). -/
opaque initialOut : Nat → BitVec 16

end Sys2Proof.Config
end

