-- ==== Sys2Proof/Word.lean ====
section
/-! DEFINITION. The word types of U10: an input element and an output element.  A register of LEN_W
bits is a plain `Nat` below 2^LEN_W, since LEN_W is an argument of the model (R7; log 17). -/

namespace Sys2Proof

/-- An input element, and a staging register: 8 bits, unsigned (R6, R10, R41). -/
abbrev Byte : Type := BitVec 8

/-- An output element: 16 bits, unsigned (R6, R42). -/
abbrev Word16 : Type := BitVec 16

end Sys2Proof
end

