-- ==== Sys2Proof/Syntax.lean ====
section
/-! DEFINITION. The thirteen operations of U10 (R78), the eleven sequencer positions (R13, R77), and
the three formats in which an operation is selected (PIN R76, CMD R75, SEQ R77). -/

namespace Sys2Proof

/-- The two agents that take steps (R8). -/
inductive Agent where
  | host
  | engine
  deriving DecidableEq, Repr

/-- The values of register P: a type of exactly eleven values, as R89 prefers, so that the reserved
codes 11..15 (R81, R152) are no values of P.  `SeqPos.code` (Decode.lean) is the 4-bit code. -/
inductive SeqPos where
  | tst
  | ldb0
  | ldb1
  | ldb2
  | ldb3
  | ldb4
  | ext0
  | ext1
  | ext2
  | ext3
  | fin
  deriving DecidableEq, Repr

/-- One constructor for each row of `spec/opcode_table.json`, in its order (R78).
The operands of START are numbers as the HOST means them; `Instr.wellFormed` says that they fit. -/
inductive Instr where
  | rst
  | start (len cap : Nat)
  | tst
  | ldb0
  | ldb1
  | ldb2
  | ldb3
  | ldb4
  | ext0
  | ext1
  | ext2
  | ext3
  | fin
  deriving DecidableEq, Repr

/-- What stands on one of the three inputs that select an operation, in a block of LEN_W = `w`. -/
inductive OpWord (w : Nat) where
  /-- the reset input, one bit (R76) -/
  | pin (b : BitVec 1)
  /-- the command port, `cap ‖ len`, 2*LEN_W bits (R75) -/
  | cmd (c : BitVec (2 * w))
  /-- the register P as its 4-bit code (R77) -/
  | seq (c : BitVec 4)
  deriving DecidableEq, Repr

/-- The agent that performs an operation (R78). -/
def Instr.agent : Instr → Agent
  | .rst => .host
  | .start _ _ => .host
  | .tst => .engine
  | .ldb0 => .engine
  | .ldb1 => .engine
  | .ldb2 => .engine
  | .ldb3 => .engine
  | .ldb4 => .engine
  | .ext0 => .engine
  | .ext1 => .engine
  | .ext2 => .engine
  | .ext3 => .engine
  | .fin => .engine

/-- The agent at an input: the HOST drives the reset input and the command port, the ENGINE has P. -/
def OpWord.agent {w : Nat} : OpWord w → Agent
  | .pin _ => .host
  | .cmd _ => .host
  | .seq _ => .engine

/-- The mnemonics of R87, as the opcode table spells them. -/
def Instr.mnemonic : Instr → String
  | .rst => "RST"
  | .start _ _ => "START"
  | .tst => "TST"
  | .ldb0 => "LDB0"
  | .ldb1 => "LDB1"
  | .ldb2 => "LDB2"
  | .ldb3 => "LDB3"
  | .ldb4 => "LDB4"
  | .ext0 => "EXT0"
  | .ext1 => "EXT1"
  | .ext2 => "EXT2"
  | .ext3 => "EXT3"
  | .fin => "FIN"

end Sys2Proof
end

