-- ==== Sys2Proof/Machine/State.lean ====
section
/-! DEFINITION. The state of U10 and of the two spaces and the channel it reaches, as plain data; the
reasons a step can stop; the state after reset.  Rules R10 to R33, R40 to R43, R79, R171, R176. -/

namespace Sys2Proof.Machine

/-- STATUS.ST (R20, R21). -/
inductive St where
  | idle
  | busy
  | done
  | fail
  deriving DecidableEq, Repr

/-- STATUS.CAUSE; the reserved codes 2 and 3 are no values, as R82 asks (R20, R171). -/
inductive Cause where
  | noCause
  | resourceExhausted
  deriving DecidableEq, Repr

/-- STATUS (CR0) by its four fields (R20).  `Status.byte` (Flags.lean) is the 8-bit register. -/
structure Status where
  st : St
  notice : Bool
  /-- the values 5, 6, 7 never occur (R20, R82) -/
  disc : Fin 5
  cause : Cause
  deriving DecidableEq, Repr

/-- STATUS = 0x00 (R30, R201). -/
def Status.idle : Status := { st := .idle, notice := false, disc := 0, cause := .noCause }

/-- The staging registers S0..S4, 8 bits each (R10). -/
structure Staging where
  s0 : Byte
  s1 : Byte
  s2 : Byte
  s3 : Byte
  s4 : Byte
  deriving DecidableEq, Repr

/-- The event lines towards the HOST as the last step left them; a line is raised for exactly the one
step that names it (R176). -/
structure EventLines where
  done : Bool
  fail : Bool
  notice : Bool
  deriving DecidableEq, Repr

/-- No line raised. -/
def EventLines.low : EventLines := { done := false, fail := false, notice := false }

/-- The code of a notice record: only 1 = TRUNCATION is ever emitted (R79, R82). -/
inductive NoticeCode where
  | truncation
  deriving DecidableEq, Repr

/-- A record of the channel DIAG (R43, R79). -/
structure DiagRecord where
  code : NoticeCode
  disc : Fin 5
  deriving DecidableEq, Repr

/-- A space of elements of `w` bits, by element index (R41, R42): the elements something has been
written to, in the canonical form `Memory.wf` of Ops.lean.  An unlisted index has had nothing written
to it; what it holds is the free value `Config.initialIn` or `Config.initialOut` (log 3). -/
abbrev Memory (w : Nat) : Type := List (Nat × BitVec w)

/-- The registers the HOST can read, CR0 to CR3 (R17 to R20). -/
inductive ControlReg where
  | status
  | len
  | cap
  | count
  deriving DecidableEq, Repr

/-- What the HOST may do to the spaces and the result registers (R8, R57, R110, R206). -/
inductive HostAccess where
  /-- place a byte of the input space -/
  | writeIn (i : Nat) (v : Byte)
  /-- write an element of the output space, which the HOST owns outside a call -/
  | writeOut (j : Nat) (v : Word16)
  /-- read an element of the output space -/
  | readOut (j : Nat)
  /-- read a result register -/
  | readReg (r : ControlReg)
  deriving DecidableEq, Repr

/-- One turn of the interleaving of HOST and ENGINE steps (R8, R140). -/
inductive HostMove where
  /-- the HOST does nothing: the ENGINE has the turn -/
  | engine
  /-- the HOST asserts the reset input (R76, R101) -/
  | rst
  /-- the HOST presents a word on the command port, here as a number (R75, R102) -/
  | start (cmd : Nat)
  /-- the HOST accesses a space or a result register -/
  | access (a : HostAccess)
  deriving DecidableEq, Repr

/-- A value the HOST has been given by a read (R110). -/
inductive HostRead where
  | out (j : Nat) (v : Word16)
  | reg (r : ControlReg) (v : Nat)
  deriving DecidableEq, Repr

/-- An entry of the event history H (R32). -/
inductive HistEvent where
  | cmdRst
  | cmdStart (len cap : Nat)
  | read (i : Nat) (v : Byte)
  | write (j : Nat) (v : Word16)
  | diag (r : DiagRecord)
  | eventDone
  | eventFail
  deriving DecidableEq, Repr

/-- Everything the spec gives the machine, and the model's own bookkeeping. -/
structure State where
  /-- LEN_W, the width of the registers K, LEN, CAP and COUNT: the parameter of the implementation, which
  "the model takes as an argument" (R7); no step changes it (log 1) -/
  lenW : Nat
  /-- S0..S4 (R10) -/
  stg : Staging
  /-- K, the block index (R12).  K, LEN, CAP and COUNT are LEN_W bits wide: the unsigned numbers they
  hold, below 2^LEN_W (`ControlInv.widths`; log 17) -/
  k : Nat
  /-- P, the micro-program position (R13) -/
  p : SeqPos
  /-- LEN (R17) -/
  len : Nat
  /-- CAP (R18) -/
  cap : Nat
  /-- COUNT (R19) -/
  count : Nat
  /-- STATUS (R20) -/
  status : Status
  /-- the event lines DONE, FAIL, NOTICE (R176) -/
  events : EventLines
  /-- the input space IN (R41) -/
  inMem : Memory 8
  /-- the output space OUT (R42) -/
  outMem : Memory 16
  /-- the notice channel DIAG, oldest record first (R43) -/
  diag : List DiagRecord
  /-- the model's own: the turns to come, next one first; when none is left the ENGINE has every turn
  (R8, R140; log 5) -/
  pending : List HostMove
  /-- the model's own: the values the HOST has read, oldest first (R110; log 5) -/
  hostLog : List HostRead
  /-- bookkeeping: the event history H, oldest first (R32) -/
  hist : List HistEvent
  /-- the model's own: how many of the free values `Config.freeByte` have been drawn (log 2) -/
  draws : Nat
  deriving DecidableEq, Repr

/-- U10 has no fault: memory accesses and notices cannot fail, and the only failure of a call is a
state, STATUS.ST = FAIL (R63, R173, R182).  The type has no constructor, so no step can end in one. -/
inductive Fault where
  deriving DecidableEq, Repr

/-- Why a step has no meaning. -/
inductive Refusal where
  /-- raised by exec's arm of an instruction without a meaning; safe (no such arm is left) -/
  | notModelled (mnemonic : String)
  /-- raised by START when an operand needs more than LEN_W bits, as it does where the HOST presents a
  number that is no word of the command port: the model "refuses it at the boundary" (R84, U11); safe -/
  | startOperandTooWide
  /-- raised by a HOST write of `IN[i]`, `i < LEN`, while ST = BUSY (R57, R207, U4); safe -/
  | hostWritesInputDuringCall
  /-- raised by a HOST write of `OUT[j]`, `j < CAP`, while ST = BUSY (R57, R208, U14); safe -/
  | hostWritesOutputDuringCall
  /-- raised by a HOST read of `OUT[j]`, `j < CAP`, while ST = BUSY (R57, R208, U14); safe -/
  | hostReadsOutputDuringCall
  deriving DecidableEq, Repr

/-- The staging registers RST leaves, "unspecified: any 8-bit value each" (R30): five free values, the
draws from `n` on (log 2). -/
def Staging.unspecified (n : Nat) : Staging :=
  { s0 := Config.freeByte n
    s1 := Config.freeByte (n + 1)
    s2 := Config.freeByte (n + 2)
    s3 := Config.freeByte (n + 3)
    s4 := Config.freeByte (n + 4) }

/-- The state after reset (R30, R201) of a block of LEN_W = `w`, with nothing in the spaces, on DIAG or
pending. -/
def State.resetOf (w : Nat) : State :=
  { lenW := w
    stg := Staging.unspecified 0
    k := 0
    p := .tst
    len := 0
    cap := 0
    count := 0
    status := Status.idle
    events := EventLines.low
    inMem := []
    outMem := []
    diag := []
    pending := []
    hostLog := []
    hist := []
    draws := 5 }

/-- The state after reset of a block of the recommended LEN_W (R7; log 1). -/
def State.reset : State := State.resetOf Config.lenW

end Sys2Proof.Machine
end

