-- ==== Sys2Proof/Machine/Flags.lean ====
section
/-! DEFINITION. The computations of the STATUS fields, STATUS as an 8-bit register, the quantities
that are functions of LEN (R27), and the 5-bit notice record. -/

namespace Sys2Proof.Machine

/-- NBLK = `L div 5` (R27). -/
def nblk (l : Nat) : Nat := l / 5

/-- NEED = `4 * NBLK` (R27). -/
def need (l : Nat) : Nat := 4 * (l / 5)

/-- TAIL = `L mod 5`, the value START writes to STATUS.DISC (R23, R27). -/
def tailOf (l : Nat) : Fin 5 := ⟨l % 5, Nat.mod_lt l (by decide)⟩

/-- The value START writes to STATUS.NOTICE: 1 exactly when `L mod 5 != 0` (R22). -/
def noticeOf (l : Nat) : Bool := l % 5 != 0

/-- The code of STATUS.ST (R20). -/
def St.code : St → Nat
  | .idle => 0
  | .busy => 1
  | .done => 2
  | .fail => 3

/-- The code of STATUS.CAUSE (R20, R171). -/
def Cause.code : Cause → Nat
  | .noCause => 0
  | .resourceExhausted => 1

/-- `STATUS = CAUSE*64 + DISC*8 + NOTICE*4 + ST` (R20). -/
def Status.number (t : Status) : Nat :=
  t.cause.code * 64 + t.disc.val * 8 + t.notice.toNat * 4 + t.st.code

/-- STATUS (CR0) as the HOST reads it, 8 bits (R20). -/
def Status.byte (t : Status) : BitVec 8 := BitVec.ofNat 8 t.number

/-- The code of a notice: 1 = TRUNCATION (R79, R171). -/
def NoticeCode.code : NoticeCode → Nat
  | .truncation => 1

/-- The 5-bit record `rec = code ‖ disc` (R79). -/
def DiagRecord.bits (r : DiagRecord) : BitVec 5 := BitVec.ofNat 5 (r.code.code * 8 + r.disc.val)

/-- The number of a control register: CR0 STATUS, CR1 LEN, CR2 CAP, CR3 COUNT (file 10, section 3). -/
def ControlReg.number : ControlReg → Nat
  | .status => 0
  | .len => 1
  | .cap => 2
  | .count => 3

end Sys2Proof.Machine
end

