-- ==== Sys2Proof/Machine/Operands.lean ====
section
/-! DEFINITION. The operand forms: the two effective addresses, the staging registers by number, and
the datapath of the extracts (barrel shifter, lanes, block function, widening).  Pure functions. -/

namespace Sys2Proof.Machine

/-- `EA_IN(K, i) = 5*K + i`, an element index of IN; it does not wrap (R154, R161). -/
def eaIn (k i : Nat) : Nat := 5 * k + i

/-- `EA_OUT(K, n) = 4*K + n`, an element index of OUT; it does not wrap (R154, R161). -/
def eaOut (k n : Nat) : Nat := 4 * k + n

/-- A register of LEN_W = `w` bits counted up by one.  R161 says that neither K nor COUNT ever passes the
top of its range (log 6). -/
def succReg (w x : Nat) : Nat := (x + 1) % 2 ^ w

/-- `S[i]` (R10). -/
def Staging.get (g : Staging) (i : Fin 5) : Byte :=
  match i with
  | 0 => g.s0
  | 1 => g.s1
  | 2 => g.s2
  | 3 => g.s3
  | 4 => g.s4

/-- `S[i] <- v` (R10). -/
def Staging.set (g : Staging) (i : Fin 5) (v : Byte) : Staging :=
  match i with
  | 0 => { g with s0 := v }
  | 1 => { g with s1 := v }
  | 2 => { g with s2 := v }
  | 3 => { g with s3 := v }
  | 4 => { g with s4 := v }

/-- The shared shifter: `X[15 - 2n : 6 - 2n]` of `X = hi ‖ lo` (R120, format LANE16 R73). -/
def bsh (n : Fin 4) (hi lo : Byte) : BitVec 10 :=
  let x : BitVec 16 := hi ++ lo
  (x >>> (6 - 2 * n.val)).setWidth 10

/-- The lane formula, over the integers (R121). -/
def lane (n : Fin 4) (hi lo : Byte) : Nat :=
  (hi.toNat % 2 ^ (8 - 2 * n.val)) * 2 ^ (2 * n.val + 2) + lo.toNat / 2 ^ (6 - 2 * n.val)

/-- `UNPACK40`: the source's four formulas (R126, from R122 to R125). -/
def unpack40 (b0 b1 b2 b3 b4 : Byte) (n : Fin 4) : Nat :=
  match n with
  | 0 => b0.toNat * 4 + b1.toNat / 64
  | 1 => (b1.toNat % 64) * 16 + b2.toNat / 16
  | 2 => (b2.toNat % 16) * 64 + b3.toNat / 4
  | 3 => (b3.toNat % 4) * 256 + b4.toNat

/-- The window of a block: `V = b0 ‖ b1 ‖ b2 ‖ b3 ‖ b4`, first byte most significant (R44, R70). -/
def window (b0 b1 b2 b3 b4 : Byte) : BitVec 40 := b0 ++ b1 ++ b2 ++ b3 ++ b4

/-- Field `n` of a window: `V[39 - 10n : 30 - 10n]` (R71). -/
def field (v : BitVec 40) (n : Fin 4) : BitVec 10 := (v >>> (30 - 10 * n.val)).setWidth 10

/-- `zext_16`: a lane result as an output element, its numeric value unchanged (R129). -/
def zext16 (w : Nat) : Word16 := BitVec.ofNat 16 w

end Sys2Proof.Machine
end

