-- ==== Sys2Proof/Machine/Ops.lean ====
section
/-! DEFINITION. The operations the meanings are built from: the two spaces, the notice channel, the
event lines, the registers, the failure (U10's one exception) and the ENGINE's step. -/

namespace Sys2Proof.Machine

/-! ### A space -/

/-- The canonical form of a space: strictly rising indices (so an index is listed at most once). -/
abbrev Memory.wf {w : Nat} (m : Memory w) : Prop := m.Pairwise (fun x y => x.1 < y.1)

/-- What has been written to element `a`, if anything has. -/
def Memory.lookup {w : Nat} : Memory w → Nat → Option (BitVec w)
  | [], _ => none
  | (b, v) :: m, a => if a = b then some v else Memory.lookup m a

/-- Write one element, keeping the canonical form. -/
def Memory.write {w : Nat} : Memory w → Nat → BitVec w → Memory w
  | [], a, v => [(a, v)]
  | (b, u) :: m, a, v =>
    if a < b then (a, v) :: (b, u) :: m
    else if a = b then (a, v) :: m
    else (b, u) :: Memory.write m a v

/-- `IN[i]` (R41). -/
def inAt (s : State) (i : Nat) : Byte := (Memory.lookup s.inMem i).getD (Config.initialIn i)

/-- `OUT[j]` (R42). -/
def outAt (s : State) (j : Nat) : Word16 := (Memory.lookup s.outMem j).getD (Config.initialOut j)

/-! ### Event lines and history -/

/-- Every line low: what a step begins with, since a line is raised for one step only (R176). -/
def lowerEvents (s : State) : State := { s with events := EventLines.low }

/-- Append an entry to the history H (R32). -/
def record (e : HistEvent) (s : State) : State := { s with hist := s.hist ++ [e] }

/-- `Event(DONE)` (R176). -/
def raiseDone (s : State) : State :=
  record .eventDone { s with events := { s.events with done := true } }

/-- `Event(FAIL)` (R176). -/
def raiseFailEvent (s : State) : State :=
  record .eventFail { s with events := { s.events with fail := true } }

/-! ### Access primitives (R46, R47, R48); none can fail (R63) -/

/-- `MemRead(IN, i)`: the byte, and the state with the access in the history (R46).
R46's precondition `i < LEN` is not tested: the block has no such test, and every use from a
reachable state meets it (R154; log 6). -/
def memRead (i : Nat) (s : State) : Byte × State := (inAt s i, record (.read i (inAt s i)) s)

/-- `MemWrite(OUT, j, v)` (R47).  As for `memRead`, the precondition is not tested (R213; log 6). -/
def memWrite (j : Nat) (v : Word16) (s : State) : State :=
  record (.write j v) { s with outMem := Memory.write s.outMem j v }

/-- `DiagEmit(code, disc)`: append the record and raise the line NOTICE (R48). -/
def diagEmit (r : DiagRecord) (s : State) : State :=
  record (.diag r)
    { s with diag := s.diag ++ [r], events := { s.events with notice := true } }

/-! ### Registers -/

/-- `P <- code` (R15). -/
def setPos (p : SeqPos) (s : State) : State := { s with p := p }

/-- `S[i] <- v` (R10, R11). -/
def setStaging (i : Fin 5) (v : Byte) (s : State) : State := { s with stg := s.stg.set i v }

/-- `COUNT <- COUNT + 1` (R19). -/
def bumpCount (s : State) : State := { s with count := succReg s.lenW s.count }

/-- `K <- K + 1` (R150). -/
def bumpBlock (s : State) : State := { s with k := succReg s.lenW s.k }

/-- `STATUS.ST <- v` (R21). -/
def setSt (v : St) (s : State) : State := { s with status := { s.status with st := v } }

/-- The registers at their reset values; S takes five new free values (R30, R101; log 2). -/
def resetRegisters (s : State) : State :=
  { s with
    stg := Staging.unspecified s.draws
    draws := s.draws + 5
    k := 0
    p := .tst
    len := 0
    cap := 0
    count := 0
    status := Status.idle }

/-- What START writes before it looks at the tail and the capacity: the operands, the position, COUNT,
CAUSE, DISC and NOTICE (R102). -/
def latchCall (l c : Nat) (s : State) : State :=
  { s with
    len := l
    cap := c
    k := 0
    p := .tst
    count := 0
    status := { s.status with cause := .noCause, disc := tailOf l, notice := noticeOf l } }

/-! ### The failure and the way out of it -/

/-- `raise Fail(cause)`, the entry into failure: exactly ST, CAUSE and the event line FAIL (R172).
Nothing is saved and control goes nowhere; there is no return: the way out of FAIL is the next START
or RST (R180), which `latchCall` and `resetRegisters` are. -/
def raiseFail (c : Cause) (s : State) : State :=
  raiseFailEvent { s with status := { s.status with st := .fail, cause := c } }

/-- The truncation notice: emitted exactly when `L mod 5 != 0` (R102, R174). -/
def emitNotice (l : Nat) (s : State) : State :=
  if l % 5 ≠ 0 then diagEmit { code := .truncation, disc := tailOf l } s else s

/-- The capacity check: failure exactly when `4 * (L div 5) > CAP`, else BUSY (R102, R173). -/
def checkCapacity (l c : Nat) (s : State) : State :=
  if 4 * (l / 5) > c then raiseFail .resourceExhausted s else setSt .busy s

/-! ### The ENGINE's step -/

/-- A micro-operation happens only while STATUS.ST = BUSY; in IDLE, DONE and FAIL the ENGINE "changes
nothing" (R140), and the event lines are low (R176). -/
def engineStep (f : State → State) (s : State) : Host.Outcome State Fault Refusal :=
  if s.status.st = .busy then .next (f (lowerEvents s)) else .next (lowerEvents s)

/-- LDB`i`: `S[i] <- MemRead(IN, 5*K + i)`, then the next position (R142 to R146). -/
def loadByte (i : Fin 5) (next : SeqPos) (s : State) : State :=
  let r := memRead (eaIn s.k i.val) s
  setPos next (setStaging i r.1 r.2)

/-- The part the four extracts share: `MemWrite(OUT, 4*K + n, zext_16(LANE(n, S[n], S[n+1])))` and
`COUNT <- COUNT + 1` (R147 to R150). -/
def extractWord (n : Fin 4) (s : State) : State :=
  bumpCount
    (memWrite (eaOut s.k n.val) (zext16 (lane n (s.stg.get n.castSucc) (s.stg.get n.succ))) s)

/-! ### What the HOST reads -/

/-- The value of a result register as the HOST reads it (R20, R110). -/
def controlValue (r : ControlReg) (s : State) : Nat :=
  match r with
  | .status => s.status.byte.toNat
  | .len => s.len
  | .cap => s.cap
  | .count => s.count

/-- The HOST is given a value. -/
def giveHost (v : HostRead) (s : State) : State := { s with hostLog := s.hostLog ++ [v] }

end Sys2Proof.Machine
end

