-- ==== Sys2Proof/Machine/Extracts.lean ====
section
/-! DEFINITION. The meanings of the four extracts, the regrouper's output side (R147 to R150). -/

namespace Sys2Proof.Machine

/-- EXT0 (R147). -/
def execExt0 (s : State) : Host.Outcome State Fault Refusal :=
  engineStep (fun t => setPos .ext1 (extractWord 0 t)) s

/-- EXT1 (R148). -/
def execExt1 (s : State) : Host.Outcome State Fault Refusal :=
  engineStep (fun t => setPos .ext2 (extractWord 1 t)) s

/-- EXT2 (R149). -/
def execExt2 (s : State) : Host.Outcome State Fault Refusal :=
  engineStep (fun t => setPos .ext3 (extractWord 2 t)) s

/-- EXT3: the index uses K before the increment (R150). -/
def execExt3 (s : State) : Host.Outcome State Fault Refusal :=
  engineStep (fun t => setPos .tst (bumpBlock (extractWord 3 t))) s

end Sys2Proof.Machine
end

