-- ==== Sys2Proof/WellFormed.lean ====
section
/-! DEFINITION. Which instruction terms can be presented to the hardware: the operands of START must
fit LEN_W bits (R84: a length that does not fit cannot be presented, and is not truncated). -/

namespace Sys2Proof

/-- An operand of START fits a register of LEN_W = `w` bits (R84). -/
def fitsLenW (w n : Nat) : Bool := decide (n < 2 ^ w)

/-- The check, for a block of LEN_W = `w`.  Only START has operands (R78). -/
def Instr.wellFormed (w : Nat) : Instr → Bool
  | .start l c => fitsLenW w l && fitsLenW w c
  | .rst => true
  | .tst => true
  | .ldb0 => true
  | .ldb1 => true
  | .ldb2 => true
  | .ldb3 => true
  | .ldb4 => true
  | .ext0 => true
  | .ext1 => true
  | .ext2 => true
  | .ext3 => true
  | .fin => true

end Sys2Proof
end

