-- ==== Sys2Proof/Machine/HostCommands.lean ====
section
/-! DEFINITION. The meanings of the two HOST commands, RST (R101) and START (R102, R103). -/

namespace Sys2Proof.Machine

/-- RST: every register to its reset value, in any state; no event line, no record (R101). -/
def execRst (s : State) : Host.Outcome State Fault Refusal :=
  .next (record .cmdRst (resetRegisters (lowerEvents s)))

/-- START L=`l` CAP=`c`: ignored while BUSY (R103), else the call begins (R102).  Operands that do not
fit LEN_W bits cannot be presented and are refused, not truncated (R84, U11). -/
def execStart (l c : Nat) (s : State) : Host.Outcome State Fault Refusal :=
  if fitsLenW s.lenW l && fitsLenW s.lenW c then
    if s.status.st = .busy then .next (lowerEvents s)
    else
      .next (checkCapacity l c
        (emitNotice l (latchCall l c (record (.cmdStart l c) (lowerEvents s)))))
  else .refused .startOperandTooWide

end Sys2Proof.Machine
end

