-- ==== Sys2Proof/Machine/Loads.lean ====
section
/-! DEFINITION. The meanings of the five loads, the regrouper's input side (R142 to R146). -/

namespace Sys2Proof.Machine

/-- LDB0 (R142). -/
def execLdb0 (s : State) : Host.Outcome State Fault Refusal := engineStep (loadByte 0 .ldb1) s

/-- LDB1 (R143). -/
def execLdb1 (s : State) : Host.Outcome State Fault Refusal := engineStep (loadByte 1 .ldb2) s

/-- LDB2 (R144). -/
def execLdb2 (s : State) : Host.Outcome State Fault Refusal := engineStep (loadByte 2 .ldb3) s

/-- LDB3 (R145). -/
def execLdb3 (s : State) : Host.Outcome State Fault Refusal := engineStep (loadByte 3 .ldb4) s

/-- LDB4 (R146). -/
def execLdb4 (s : State) : Host.Outcome State Fault Refusal := engineStep (loadByte 4 .ext0) s

end Sys2Proof.Machine
end

