-- ==== Sys2Proof/Machine/LoopControl.lean ====
section
/-! DEFINITION. The meanings of TST, the loop test (R141), and FIN, the end of a call (R151). -/

namespace Sys2Proof.Machine

/-- TST: `if 5*K + 5 <= LEN then P <- 1 else P <- 10`, compared over the integers (R141). -/
def execTst (s : State) : Host.Outcome State Fault Refusal :=
  engineStep (fun t => setPos (if eaIn t.k 5 ≤ t.len then .ldb0 else .fin) t) s

/-- FIN: `STATUS.ST <- DONE; Event(DONE)`; P and K stay (R151). -/
def execFin (s : State) : Host.Outcome State Fault Refusal :=
  engineStep (fun t => raiseDone (setSt .done t)) s

end Sys2Proof.Machine
end

