-- ==== Sys2Proof/Machine/Dispatch.lean ====
section
/-! DEFINITION. exec: one meaning for each of the thirteen operations (R78). -/

namespace Sys2Proof.Machine

-- HOST commands (R101, R102); ENGINE micro-operations (R141 to R151).
def exec (i : Instr) (s : State) : Host.Outcome State Fault Refusal :=
  match i with
  | .rst => Sys2Proof.Machine.execRst s
  | .start l c => Sys2Proof.Machine.execStart l c s
  | .tst => Sys2Proof.Machine.execTst s
  | .ldb0 => Sys2Proof.Machine.execLdb0 s
  | .ldb1 => Sys2Proof.Machine.execLdb1 s
  | .ldb2 => Sys2Proof.Machine.execLdb2 s
  | .ldb3 => Sys2Proof.Machine.execLdb3 s
  | .ldb4 => Sys2Proof.Machine.execLdb4 s
  | .ext0 => Sys2Proof.Machine.execExt0 s
  | .ext1 => Sys2Proof.Machine.execExt1 s
  | .ext2 => Sys2Proof.Machine.execExt2 s
  | .ext3 => Sys2Proof.Machine.execExt3 s
  | .fin => Sys2Proof.Machine.execFin s

end Sys2Proof.Machine
end

