-- ==== Sys2Proof/Decode.lean ====
section
/-! DEFINITION. From the word on a selecting input to an operation or a rejection by name, and back.
The encodings are those of R75 (CMD), R76 (PIN) and R77 (SEQ). -/

namespace Sys2Proof

/-- The 4-bit code of a sequencer position (R13, R77). -/
def SeqPos.code : SeqPos → BitVec 4
  | .tst => 0b0000#4
  | .ldb0 => 0b0001#4
  | .ldb1 => 0b0010#4
  | .ldb2 => 0b0011#4
  | .ldb3 => 0b0100#4
  | .ldb4 => 0b0101#4
  | .ext0 => 0b0110#4
  | .ext1 => 0b0111#4
  | .ext2 => 0b1000#4
  | .ext3 => 0b1001#4
  | .fin => 0b1010#4

/-- The position a 4-bit code names; the codes 11 to 15 name none (R77, R81). -/
def SeqPos.ofCode (c : BitVec 4) : Option SeqPos :=
  match c.toNat with
  | 0 => some .tst
  | 1 => some .ldb0
  | 2 => some .ldb1
  | 3 => some .ldb2
  | 4 => some .ldb3
  | 5 => some .ldb4
  | 6 => some .ext0
  | 7 => some .ext1
  | 8 => some .ext2
  | 9 => some .ext3
  | 10 => some .fin
  | _ => none

/-- DEC(P) (R89), total because `SeqPos` has exactly the eleven values. -/
def dec : SeqPos → Instr
  | .tst => .tst
  | .ldb0 => .ldb0
  | .ldb1 => .ldb1
  | .ldb2 => .ldb2
  | .ldb3 => .ldb3
  | .ldb4 => .ldb4
  | .ext0 => .ext0
  | .ext1 => .ext1
  | .ext2 => .ext2
  | .ext3 => .ext3
  | .fin => .fin

/-- The operand L of a command word, as a number: `cmd[LEN_W-1 : 0]` (R75). -/
def cmdLen (w c : Nat) : Nat := c % 2 ^ w

/-- The operand CAP of a command word, as a number: `cmd[2*LEN_W-1 : LEN_W]` (R75). -/
def cmdCap (w c : Nat) : Nat := c / 2 ^ w

/-- Every word on the command port is a START (R75, R84).  A number of more than 2*LEN_W bits is no
word of the port; its CAP does not fit, so the START it names is refused at the boundary (log 10). -/
def decodeCmd (w c : Nat) : Instr := .start (cmdLen w c) (cmdCap w c)

/-- Why a word selects no operation. -/
inductive Reject where
  /-- the reset input is 0: nothing is asserted (R76) -/
  | pinNotAsserted
  /-- a sequencer code 11..15 (R81, R152) -/
  | reservedCode (c : BitVec 4)
  deriving DecidableEq, Repr

/-- The decoder: which operation a word on a selecting input selects (R75, R76, R77, R78). -/
def decode {w : Nat} : OpWord w → Except Reject Instr
  | .pin b => if b = 1#1 then .ok .rst else .error .pinNotAsserted
  | .cmd c => .ok (decodeCmd w c.toNat)
  | .seq c =>
    match SeqPos.ofCode c with
    | some p => .ok (dec p)
    | none => .error (.reservedCode c)

/-- The command word of `START L=len CAP=cap`, `cap ‖ len`, as a number (R75). -/
def cmdWord (w len cap : Nat) : Nat := cap * 2 ^ w + len

/-- The encoder, from the same tables (R75, R76, R77): the word of a well-formed operation. -/
def encode (w : Nat) : Instr → OpWord w
  | .rst => .pin 1#1
  | .start len cap => .cmd (BitVec.ofNat (2 * w) (cmdWord w len cap))
  | .tst => .seq 0b0000#4
  | .ldb0 => .seq 0b0001#4
  | .ldb1 => .seq 0b0010#4
  | .ldb2 => .seq 0b0011#4
  | .ldb3 => .seq 0b0100#4
  | .ldb4 => .seq 0b0101#4
  | .ext0 => .seq 0b0110#4
  | .ext1 => .seq 0b0111#4
  | .ext2 => .seq 0b1000#4
  | .ext3 => .seq 0b1001#4
  | .fin => .seq 0b1010#4

/-- Which selecting input a word of `nbits` bits belongs to, in a block of LEN_W = `w`, and the word
there (log 4).  The table's rows have 1 bit (PIN), 4 bits (SEQ) and 2*LEN_W bits (CMD).  Rounded up to
a whole byte PIN and SEQ have the same width: an 8-bit word is read as a sequencer code, the only one
of the two that the block stores. -/
def portWord (w nbits c : Nat) : Option (OpWord w) :=
  if nbits = 1 ∧ c < 2 then some (.pin (BitVec.ofNat 1 c))
  else if (nbits = 4 ∨ nbits = 8) ∧ c < 16 then some (.seq (BitVec.ofNat 4 c))
  else if nbits = 2 * w ∧ c < 2 ^ (2 * w) then some (.cmd (BitVec.ofNat (2 * w) c))
  else none

/-- The operation the decoder reads from such a word. -/
def decodePortWord (w nbits c : Nat) : Option Instr :=
  match portWord w nbits c with
  | some o => (decode o).toOption
  | none => none

/-- The operation the decoder reads from a word numbered as `spec/opcode_table.json` numbers it; the
table shows the widths for LEN_W = 32. -/
def decodeTableWord (nbits w : Nat) : Option Instr := decodePortWord Config.lenW nbits w

end Sys2Proof
end

