-- ==== Sys2Proof/Machine/Fetch.lean ====
section
/-! DEFINITION. Which step comes next: the turn of the HOST that stands first in `pending`, or the
micro-operation `DEC(P)` (R8, R14, R61, R140). -/

namespace Sys2Proof.Machine

/-- A step: one of the thirteen operations, or an access of the HOST. -/
inductive Turn where
  | operation (i : Instr)
  | access (a : HostAccess)
  deriving DecidableEq, Repr

/-- The word that selects the next operation, on the input it stands on; none where the next step is an
access of the HOST, or where what the HOST presents is no word of the command port. -/
def selectedWord (s : State) : Option (OpWord s.lenW) :=
  match s.pending with
  | [] => some (.seq s.p.code)
  | .engine :: _ => some (.seq s.p.code)
  | .rst :: _ => some (.pin 1#1)
  | .start c :: _ =>
    if c < 2 ^ (2 * s.lenW) then some (.cmd (BitVec.ofNat (2 * s.lenW) c)) else none
  | .access _ :: _ => none

/-- The next step. -/
def nextTurn (s : State) : Turn :=
  match s.pending with
  | [] => .operation (dec s.p)
  | .engine :: _ => .operation (dec s.p)
  | .rst :: _ => .operation .rst
  | .start c :: _ => .operation (decodeCmd s.lenW c)
  | .access a :: _ => .access a

/-- The turn is taken: it is no longer to come. -/
def takeTurn (s : State) : State := { s with pending := s.pending.tail }

/-- Put a table word where the next step takes its operation from: the reset input or the command port
as the HOST's next turn, or P of a BUSY block with the turn given to the ENGINE (log 4). -/
def placeWord (s : State) (nbits w : Nat) : State :=
  match portWord s.lenW nbits w with
  | some (.pin b) => if b = 1#1 then { s with pending := .rst :: s.pending } else s
  | some (.cmd c) => { s with pending := .start c.toNat :: s.pending }
  | some (.seq c) =>
    match SeqPos.ofCode c with
    | some p =>
      { s with p := p, status := { s.status with st := .busy }, pending := .engine :: s.pending }
    | none => s
  | none => s

end Sys2Proof.Machine
end

