-- ==== Sys2Proof/Machine/HostAccess.lean ====
section
/-! DEFINITION. The HOST's steps that are no operation of U10: placing input, owning and reading the
output space, reading the result registers (R8, R57, R110, R206).  They leave the block alone. -/

namespace Sys2Proof.Machine

/-- One access of the HOST.  During a call it must not write `IN[i]`, `i < L`, nor read or write
`OUT[j]`, `j < CAP`: "A model gives such a HOST step no meaning (it is refused)" (R57; log 7). -/
def hostAccess (a : HostAccess) (s : State) : Host.Outcome State Fault Refusal :=
  match a with
  | .writeIn i v =>
    if s.status.st = .busy ∧ i < s.len then .refused .hostWritesInputDuringCall
    else .next (lowerEvents { s with inMem := Memory.write s.inMem i v })
  | .writeOut j v =>
    if s.status.st = .busy ∧ j < s.cap then .refused .hostWritesOutputDuringCall
    else .next (lowerEvents { s with outMem := Memory.write s.outMem j v })
  | .readOut j =>
    if s.status.st = .busy ∧ j < s.cap then .refused .hostReadsOutputDuringCall
    else .next (giveHost (.out j (outAt s j)) (lowerEvents s))
  | .readReg r => .next (giveHost (.reg r (controlValue r s)) (lowerEvents s))

end Sys2Proof.Machine
end

