-- ==== Sys2Proof/Machine/Step.lean ====
section
/-! DEFINITION. One step of the machine: the next turn, taken (R8, R140). -/

namespace Sys2Proof.Machine

/-- One atomic step of HOST or ENGINE. -/
def step (s : State) : Host.Outcome State Fault Refusal :=
  match nextTurn s with
  | .operation i => exec i (takeTurn s)
  | .access a => hostAccess a (takeTurn s)

/-- `s` with a table word standing where step takes its next operation from (log 4). -/
def State.withFetchWord (s : State) (nbits w : Nat) : State := placeWord s nbits w

end Sys2Proof.Machine
end

