-- ==== Sys2Proof/Machine/Reference.lean ====
section
/-! DEFINITION. The pure reference functions of a call (R108), the atomic-block abstraction (R160) and
the pseudo-operations BLOCK, END and CALL (R88).  No step of the machine uses them: they are what the
machine is compared with. -/

namespace Sys2Proof.Machine

/-- Output word `j = 4*k + n` of an input given as a function of the element index: word `n` of
`UNPACK40` on the bytes of block `k` (R104, R108). -/
def wordOf (f : Nat → Byte) (j : Nat) : Nat :=
  unpack40 (f (5 * (j / 4))) (f (5 * (j / 4) + 1)) (f (5 * (j / 4) + 2)) (f (5 * (j / 4) + 3))
    (f (5 * (j / 4) + 4)) ⟨j % 4, Nat.mod_lt j (by decide)⟩

/-- The three results of `UNPACK` (R108). -/
structure UnpackResult where
  words : List Nat
  count : Nat
  notice : Option Nat
  deriving DecidableEq, Repr

/-- `UNPACK`, the source's function (R108). -/
def unpack (bytes : List Byte) : UnpackResult :=
  { words := (List.range (need bytes.length)).map (wordOf fun i => bytes.getD i 0)
    count := need bytes.length
    notice := if bytes.length % 5 = 0 then none else some (bytes.length % 5) }

/-- How a call ends (R108). -/
inductive CallOutcome where
  | done
  | fail
  deriving DecidableEq, Repr

/-- The results of `UNPACK_CALL` (R108). -/
structure CallResult where
  outcome : CallOutcome
  words : List Nat
  count : Nat
  notice : Option Nat
  deriving DecidableEq, Repr

/-- `UNPACK_CALL`: `UNPACK` with the capacity operand (R108). -/
def unpackCall (bytes : List Byte) (cap : Nat) : CallResult :=
  let r := unpack bytes
  if r.count > cap then { outcome := .fail, words := [], count := 0, notice := r.notice }
  else { outcome := .done, words := r.words, count := r.count, notice := r.notice }

/-- The input read as one big-endian bit string (R44, R104), as a number. -/
def bitString (bytes : List Byte) : Nat := bytes.foldl (fun a b => a * 256 + b.toNat) 0

/-- The input bytes of a call of length `l`: `IN[0], ..., IN[l-1]` (R41). -/
def inputBytes (s : State) (l : Nat) : List Byte := (List.range l).map (inAt s)

/-- The four writes of `BLOCKSTEP` (R160). -/
def writeBlock (s : State) : Memory 16 :=
  let w := fun n => zext16
    (unpack40 (inAt s (eaIn s.k 0)) (inAt s (eaIn s.k 1)) (inAt s (eaIn s.k 2))
      (inAt s (eaIn s.k 3)) (inAt s (eaIn s.k 4)) n)
  Memory.write (Memory.write (Memory.write (Memory.write s.outMem (eaOut s.k 0) (w 0))
    (eaOut s.k 1) (w 1)) (eaOut s.k 2) (w 2)) (eaOut s.k 3) (w 3)

/-- `BLOCKSTEP`: the ten micro-operations of a block as one step on OUT, COUNT and K (R160). -/
def blockStep (s : State) : State :=
  { s with outMem := writeBlock s, count := (s.count + 4) % 2 ^ s.lenW, k := succReg s.lenW s.k }

/-- The pseudo-operation BLOCK (R88). -/
def pseudoBlock : List Instr :=
  [.tst, .ldb0, .ldb1, .ldb2, .ldb3, .ldb4, .ext0, .ext1, .ext2, .ext3]

/-- The pseudo-operation END (R88). -/
def pseudoEnd : List Instr := [.tst, .fin]

/-- The pseudo-operation CALL (R88). -/
def pseudoCall (l c : Nat) : List Instr :=
  if 4 * (l / 5) ≤ c then
    .start l c :: ((List.replicate (l / 5) pseudoBlock).flatten ++ pseudoEnd)
  else [.start l c]

/-- The accesses of block `k`, in the reference order: five reads, then four writes (R50, R153). -/
def blockAccesses (f : Nat → Byte) (k : Nat) : List HistEvent :=
  (List.range 5).map (fun i => .read (5 * k + i) (f (5 * k + i))) ++
    (List.range 4).map (fun n => .write (4 * k + n) (zext16 (wordOf f (4 * k + n))))

/-- What a call adds to the event history: the command, the notice if there is a tail, the accesses of
every block in order, and its one end event (R32, R50, R153, R163). -/
def callHistory (f : Nat → Byte) (l c : Nat) : List HistEvent :=
  .cmdStart l c ::
    ((if l % 5 = 0 then [] else [.diag { code := .truncation, disc := tailOf l }]) ++
      if 4 * (l / 5) ≤ c then
        (List.range (l / 5)).flatMap (blockAccesses f) ++ [.eventDone]
      else [.eventFail])

end Sys2Proof.Machine
end

