-- ==== Sys2Proof/Safety.lean ====
section
/-! DEFINITION. What counts as a good state and a good run: the invariants V1 to V10 of R33, runs of
the machine, and the premises of a claim about a call (R217). -/

namespace Sys2Proof.Machine

/-! ### Runs -/

/-- `n` steps, stopping at the first fault or refusal. -/
def steps : Nat → State → Host.Outcome State Fault Refusal
  | 0, s => .next s
  | n + 1, s =>
    match step s with
    | .next t => steps n t
    | .fault r => .fault r
    | .refused r => .refused r

/-- The operations performed in the next `n` steps, first one first. -/
def performed : Nat → State → List Instr
  | 0, _ => []
  | n + 1, s =>
    let rest := match step s with
      | .next t => performed n t
      | .fault _ => []
      | .refused _ => []
    match nextTurn s with
    | .operation i => i :: rest
    | .access _ => rest

/-- A state the machine can be in, for any LEN_W R7 allows: a run starts at the state after reset, with
whatever turns the HOST is going to take (R7, R200). -/
inductive Reachable : State → Prop where
  | reset {w : Nat} (hw : 3 ≤ w) (moves : List HostMove) :
      Reachable { State.resetOf w with pending := moves }
  | step {s t : State} : Reachable s → step s = .next t → Reachable t

/-- The HOST is about to overwrite a byte that the result in place was made from, or a word of it: in
DONE it owns both spaces and may (R41, R42), and the result is then no longer the call's (R209). -/
def OverwritesResult (s : State) : Prop :=
  s.status.st = .done ∧
    ((∃ i v, nextTurn s = .access (.writeIn i v) ∧ i < s.len) ∨
     (∃ j v, nextTurn s = .access (.writeOut j v) ∧ j < s.count))

/-- A state a run reaches in which the HOST leaves every result in place until its next command: "any
sequence of RST, START and ENGINE steps" (R33), and every other access of the HOST besides. -/
inductive ReachableInPlace : State → Prop where
  | reset {w : Nat} (hw : 3 ≤ w) (moves : List HostMove) :
      ReachableInPlace { State.resetOf w with pending := moves }
  | step {s t : State} :
      ReachableInPlace s → ¬OverwritesResult s → step s = .next t → ReachableInPlace t

/-! ### Invariants (R33) -/

/-- How many words of block K have been written when the position is P (V6). -/
def wordsDone : SeqPos → Nat
  | .ext1 => 1
  | .ext2 => 2
  | .ext3 => 3
  | .tst => 0
  | .ldb0 => 0
  | .ldb1 => 0
  | .ldb2 => 0
  | .ldb3 => 0
  | .ldb4 => 0
  | .ext0 => 0
  | .fin => 0

/-- V1 to V6, V9, V10: the registers; and the registers of LEN_W bits hold numbers of that width. -/
structure ControlInv (s : State) : Prop where
  /-- LEN, CAP, COUNT, K are LEN_W bits wide (R12, R17, R18, R19) -/
  widths : s.len < 2 ^ s.lenW ∧ s.cap < 2 ^ s.lenW ∧ s.count < 2 ^ s.lenW ∧ s.k < 2 ^ s.lenW
  /-- V1 -/
  posCode : s.p.code.toNat ≤ 10
  /-- V2, a call has been made -/
  tailFields : s.status.st ≠ .idle →
    s.status.disc.val = s.len % 5 ∧ (s.status.notice = true ↔ s.status.disc ≠ 0)
  /-- V2, no call since reset -/
  idleClear : s.status.st = .idle →
    s.len = 0 ∧ s.cap = 0 ∧ s.count = 0 ∧ s.status = Status.idle
  /-- V3 -/
  causeFail : s.status.cause = .resourceExhausted ↔ s.status.st = .fail
  /-- V3 -/
  failState : s.status.st = .fail →
    4 * (s.len / 5) > s.cap ∧ s.k = 0 ∧ s.p = .tst ∧ s.count = 0
  /-- V4 -/
  capacity : s.status.st = .busy ∨ s.status.st = .done →
    4 * (s.len / 5) ≤ s.cap
  /-- V5 -/
  blockBound : s.status.st = .busy ∨ s.status.st = .done → s.k ≤ s.len / 5
  /-- V5, inside a block -/
  blockOpen : s.status.st = .busy ∨ s.status.st = .done → s.p ≠ .tst → s.p ≠ .fin →
    s.k < s.len / 5
  /-- V6 -/
  countWords : s.status.st = .busy ∨ s.status.st = .done →
    s.count = 4 * s.k + wordsDone s.p
  /-- V9 (its COUNT is V6's) -/
  doneEnd : s.status.st = .done → s.p = .fin ∧ s.k = s.len / 5
  /-- V10 -/
  finEnd : s.status.st = .busy → s.p = .fin → s.k = s.len / 5

/-- V7 and V8 while a call runs: the loaded bytes of block K are in S, and the words counted so far are
in OUT.  These hold whatever the HOST does. -/
structure DataInv (s : State) : Prop where
  /-- V7: `S[i] = IN[5*K + i]` for every `i < min(P - 1, 5)`, with `1 <= P <= 9` -/
  staged : s.status.st = .busy → s.p ≠ .tst → s.p ≠ .fin →
    ∀ i : Fin 5, i.val < s.p.code.toNat - 1 → s.stg.get i = inAt s (5 * s.k + i.val)
  /-- V8 in BUSY: `OUT[j] = w(j)` for every `j < COUNT` -/
  written : s.status.st = .busy → ∀ j, j < s.count → (outAt s j).toNat = wordOf (inAt s) j

/-- V8 in DONE: `OUT[j] = w(j)` for every `j < COUNT`, as long as the HOST leaves the result in place
(log 15). -/
def ResultInv (s : State) : Prop :=
  s.status.st = .done → ∀ j, j < s.count → (outAt s j).toNat = wordOf (inAt s) j

/-- Both spaces are in canonical form. -/
structure MemoryInv (s : State) : Prop where
  input : s.inMem.wf
  output : s.outMem.wf

/-- Every record on DIAG is one of the four that can occur (R79). -/
def NoticesLegal (s : State) : Prop := ∀ r ∈ s.diag, 1 ≤ r.disc.val ∧ r.disc.val ≤ 4

/-! ### A call in any interleaving, and its premises (R164, R217) -/

/-- Whether the ENGINE has the next turn. -/
def engineTurn (s : State) : Bool :=
  match s.pending with
  | [] => true
  | .engine :: _ => true
  | .rst :: _ => false
  | .start _ :: _ => false
  | .access _ :: _ => false

/-- The states of the call that the step from `s` begins, as long as it runs, whatever turns the HOST
takes between ENGINE steps; the number counts the ENGINE steps of the call so far. -/
inductive DuringCall (s : State) : Nat → State → Prop where
  | start {t : State} : step s = .next t → t.status.st = .busy → DuringCall s 0 t
  | next {n : Nat} {u t : State} : DuringCall s n u → step u = .next t → t.status.st = .busy →
      DuringCall s (n + (engineTurn u).toNat) t

/-- A call has ended, well or in the one failure (R164). -/
def Ended (s : State) : Prop := s.status.st = .done ∨ s.status.st = .fail

/-- The end of that call: "the first state after its START in which STATUS.ST is DONE or FAIL" (R164; an
RST ends no call); the number counts the ENGINE steps of the call. -/
inductive CallEnd (s : State) : Nat → State → Prop where
  | atOnce {t : State} : step s = .next t → Ended t → CallEnd s 0 t
  | after {n : Nat} {u t : State} : DuringCall s n u → step u = .next t → Ended t →
      CallEnd s (n + (engineTurn u).toNat) t

/-- P-RESET: the state was produced by RST followed only by steps the spec defines. -/
def PReset (s : State) : Prop := Reachable s

/-- P-IDLE: at the START, STATUS.ST != BUSY. -/
abbrev PIdle (s : State) : Prop := s.status.st ≠ .busy

/-- P-INPUT: `IN[0 .. L-1]` are the given bytes. -/
def PInput (s : State) (bytes : List Byte) : Prop :=
  ∀ i, i < bytes.length → bytes[i]? = some (inAt s i)

/-- P-FIXED: H-IN holds, no write of `IN[0 .. L-1]` while the call runs (R207). -/
def PFixed (s : State) : Prop :=
  ∀ n u i v, DuringCall s n u → nextTurn u = .access (.writeIn i v) → u.len ≤ i

/-- P-QUIET: H-OUT holds, no HOST write or read of `OUT[0 .. CAP-1]` while the call runs (R208). -/
def PQuiet (s : State) : Prop :=
  ∀ n u j, DuringCall s n u →
    (∀ v, nextTurn u = .access (.writeOut j v) → u.cap ≤ j) ∧
    (nextTurn u = .access (.readOut j) → u.cap ≤ j)

/-- P-NORESET: no RST between the START and the end of the run. -/
def PNoReset (s : State) : Prop := ∀ n u, DuringCall s n u → nextTurn u ≠ .operation .rst

/-- P-FAIR: a BUSY ENGINE eventually takes its next step (R216): from every state of the call, the turns
of the HOST give way to one of the ENGINE with the block still BUSY. -/
def PFair (s : State) : Prop :=
  ∀ n u, DuringCall s n u →
    ∃ m v, steps m u = .next v ∧ v.status.st = .busy ∧ engineTurn v = true

/-- Whatever the HOST presents on the command port while the call runs is a word of the port (R84); the
START it is, R103 ignores. -/
def PPresentable (s : State) : Prop :=
  ∀ n u c, DuringCall s n u → u.pending.head? = some (.start c) → c < 2 ^ (2 * u.lenW)

/-- The premises of R217 for the call `START L=l CAP=c` on the bytes `bytes`, in any interleaving with
the HOST's turns.  P-DISJOINT and P-CAP hold of every state: IN and OUT are two spaces, and OUT has an
element at every index (log 16).  P-FAIR is a consequence of the others: `State.pending` is a finite
list, after which the ENGINE has every turn (log 5). -/
structure CallClaim (s : State) (bytes : List Byte) (c : Nat) : Prop where
  reset : PReset s
  presents : s.pending.head? = some (.start (cmdWord s.lenW bytes.length c))
  lenFits : bytes.length < 2 ^ s.lenW
  capFits : c < 2 ^ s.lenW
  idle : PIdle s
  input : PInput s bytes
  fixed : PFixed s
  quiet : PQuiet s
  noReset : PNoReset s
  presentable : PPresentable s

/-! ### A call the HOST leaves alone -/

/-- The state `s` with the HOST's one remaining turn: to present `START L=l CAP=c`. -/
def presentStart (s : State) (l c : Nat) : State :=
  { s with pending := [.start (cmdWord s.lenW l c)] }

/-- What `presentStart` needs besides: P-IDLE, and operands that fit (R84).  Since the HOST takes no other
turn, P-FIXED, P-QUIET, P-NORESET and P-FAIR hold of the run. -/
structure CallPremises (s : State) (l c : Nat) : Prop where
  idle : PIdle s
  lenFits : l < 2 ^ s.lenW
  capFits : c < 2 ^ s.lenW

/-- The number of steps of a call, its START among them (R158). -/
def callSteps (l c : Nat) : Nat := if 4 * (l / 5) ≤ c then 1 + (10 * (l / 5) + 2) else 1

end Sys2Proof.Machine
end

