-- ==== Sys2Proof/Certificates/Slice0/Obligations.lean ====
section
/-! DEFINITION. The statements about the model of U10, each a Prop for the provers. -/

open Sys2Proof Sys2Proof.Machine

/-! ### Encodings (R75, R76, R77, R89) -/

/-- No bit of an encoding is dropped, in a block of any LEN_W: every well-formed operation is read back
from its word. -/
def Obligations.DecodeOfEncodeIsTheOperation : Prop :=
  ∀ (w : Nat) (i : Instr), i.wellFormed w = true → decode (encode w i) = .ok i

/-- Each word has one meaning: a word that selects an operation is that operation's encoding. -/
def Obligations.EncodeOfDecodeIsTheWord : Prop :=
  ∀ (w : Nat) (o : OpWord w) (i : Instr), decode o = .ok i → i.wellFormed w = true ∧ encode w i = o

/-- The words of the three formats, written out from R75 (T-START's `START L=7 CAP=4`, which the table
writes for LEN_W = 32, and the same command for LEN_W = 3), R76 and R77. -/
def Obligations.WordsWrittenOutDecode : Prop :=
  decode (w := 32) (.cmd 0x0000000400000007#64) = .ok (.start 7 4) ∧
  decode (w := 3) (.cmd 0b100111#6) = .ok (.start 7 4) ∧
  ∀ w : Nat,
    decode (w := w) (.pin 1#1) = .ok .rst ∧
    decode (w := w) (.seq 0b0000#4) = .ok .tst ∧ decode (w := w) (.seq 0b0001#4) = .ok .ldb0 ∧
    decode (w := w) (.seq 0b0010#4) = .ok .ldb1 ∧ decode (w := w) (.seq 0b0011#4) = .ok .ldb2 ∧
    decode (w := w) (.seq 0b0100#4) = .ok .ldb3 ∧ decode (w := w) (.seq 0b0101#4) = .ok .ldb4 ∧
    decode (w := w) (.seq 0b0110#4) = .ok .ext0 ∧ decode (w := w) (.seq 0b0111#4) = .ok .ext1 ∧
    decode (w := w) (.seq 0b1000#4) = .ok .ext2 ∧ decode (w := w) (.seq 0b1001#4) = .ok .ext3 ∧
    decode (w := w) (.seq 0b1010#4) = .ok .fin

/-- R75: every command word, of 2*LEN_W bits, is a START, with L its low half and CAP its high half. -/
def Obligations.EveryCommandWordIsAStart : Prop :=
  ∀ (w : Nat) (c : BitVec (2 * w)),
    decode (.cmd c) = .ok (.start (c.extractLsb' 0 w).toNat (c.extractLsb' w w).toNat) ∧
    (Instr.start (c.extractLsb' 0 w).toNat (c.extractLsb' w w).toNat).wellFormed w = true

/-- R152: a code selects an operation exactly when it is one of 0 to 10, and P never holds another. -/
def Obligations.ReservedCodesSelectNothing : Prop :=
  (∀ (w : Nat) (c : BitVec 4), (∃ i, decode (w := w) (.seq c) = .ok i) ↔ c.toNat ≤ 10) ∧
  (∀ (s : State) (c : BitVec 4), 11 ≤ c.toNat → s.p.code ≠ c)

/-! ### Steps and agents (R8, R14, R140) -/

/-- The operation a step runs is the one its selecting word decodes to, with the turn taken; the word
is the HOST's command where the HOST has the turn, else the code of P; and a number that is no word of
the command port is refused.  That the turns to come are a list of the state is the model's own
(log 5). -/
def Obligations.StepRunsTheSelectedOperation : Prop :=
  (∀ (s : State) (o : OpWord s.lenW) (i : Instr), selectedWord s = some o → decode o = .ok i →
    step s = exec i { s with pending := s.pending.tail }) ∧
  (∀ s : State, s.pending = [] ∨ s.pending.head? = some .engine →
    selectedWord s = some (.seq s.p.code)) ∧
  (∀ s : State, s.pending.head? = some .rst → selectedWord s = some (.pin 1#1)) ∧
  (∀ (s : State) (c : BitVec (2 * s.lenW)), s.pending.head? = some (.start c.toNat) →
    selectedWord s = some (.cmd c)) ∧
  (∀ (s : State) (c : Nat), s.pending.head? = some (.start c) → 2 ^ (2 * s.lenW) ≤ c →
    step s = .refused .startOperandTooWide) ∧
  (∀ (s : State) (a : HostAccess), s.pending.head? = some (.access a) →
    step s = hostAccess a { s with pending := s.pending.tail })

/-- A word placed where the next step takes its operation from is what that step runs: a HOST command
as it stands, a micro-operation in a BUSY block at its position; and the words of the opcode table are
those of a block of LEN_W = 32 (logs 1 and 4). -/
def Obligations.PlacedWordRunsInTheNextStep : Prop :=
  (∀ (s : State) (nbits c : Nat) (i : Instr), decodePortWord s.lenW nbits c = some i →
    (i.agent = .host → step (s.withFetchWord nbits c) = exec i s) ∧
    (i.agent = .engine → ∃ p : SeqPos, dec p = i ∧
      step (s.withFetchWord nbits c) =
        exec i { s with p := p, status := { s.status with st := .busy } })) ∧
  (∀ nbits c : Nat, decodeTableWord nbits c = decodePortWord State.reset.lenW nbits c)

/-- R140, R188: in IDLE, DONE and FAIL a micro-operation changes nothing (the event lines are low). -/
def Obligations.EngineIdlesUnlessBusy : Prop :=
  ∀ (s : State) (i : Instr), i.agent = .engine → s.status.st ≠ .busy →
    exec i s = .next { s with events := EventLines.low }

/-- R63, R57, R84: no step faults; with the turn the ENGINE's a step always completes; a step is refused
only for a HOST access to a buffer of a running call, within exactly the bounds of log 7, or for a
number that is no word of the command port.  (Who has the turn is said by the list of log 5.) -/
def Obligations.StepsAlwaysComplete : Prop :=
  (∀ (s : State) (r : Fault), step s ≠ .fault r) ∧
  (∀ s : State, s.pending = [] ∨ s.pending.head? = some .engine → ∃ t, step s = .next t) ∧
  (∀ (s : State) (r : Refusal), step s = .refused r →
    (s.status.st = .busy ∧ ∃ a, s.pending.head? = some (.access a) ∧
      ((∃ i v, a = .writeIn i v ∧ i < s.len ∧ r = .hostWritesInputDuringCall) ∨
       (∃ j v, a = .writeOut j v ∧ j < s.cap ∧ r = .hostWritesOutputDuringCall) ∨
       (∃ j, a = .readOut j ∧ j < s.cap ∧ r = .hostReadsOutputDuringCall))) ∨
    (∃ c, s.pending.head? = some (.start c) ∧ 2 ^ (2 * s.lenW) ≤ c ∧ r = .startOperandTooWide))

/-! ### RST (R101) and the state after reset -/

/-- R101, R30, R202: RST in any state; the spaces, DIAG and what is to come are untouched.  (S takes
free values, of which nothing is said.) -/
def Obligations.RstResetsTheRegisters : Prop :=
  ∀ s : State, ∃ t, exec .rst s = .next t ∧
    t.k = 0 ∧ t.p = .tst ∧ t.len = 0 ∧ t.cap = 0 ∧ t.count = 0 ∧
    t.status.st = .idle ∧ t.status.notice = false ∧ t.status.disc = 0 ∧
    t.status.cause = .noCause ∧ t.status.byte = 0x00#8 ∧
    t.events = EventLines.low ∧
    (∀ i, inAt t i = inAt s i) ∧ (∀ j, outAt t j = outAt s j) ∧
    t.diag = s.diag ∧ t.pending = s.pending ∧ t.hostLog = s.hostLog ∧
    t.hist = s.hist ++ [.cmdRst]

/-- R201: the state after reset, for every LEN_W.  That nothing is on DIAG is the model's choice (log 9,
with the other lists of the model), and that the ENGINE's turn is a step that changes nothing where
R201 says it has no step is log 5: the state is the same after every such turn. -/
def Obligations.ResetStateWaitsForStart : Prop :=
  ∀ w : Nat,
    let r := State.resetOf w
    r.lenW = w ∧ r.status.byte = 0x00#8 ∧ r.len = 0 ∧ r.cap = 0 ∧ r.count = 0 ∧ r.k = 0 ∧
    r.p = .tst ∧ r.diag = [] ∧ r.events = EventLines.low ∧ ∀ n, steps n r = .next r

/-! ### START (R102, R103) -/

/-- R102: everything an accepted START does, with room for the result or without: the operands, the
position, COUNT, the four STATUS fields, the event lines and the notice record; S, both spaces and
what is to come are untouched. -/
def Obligations.AcceptedStartDoesItsStep : Prop :=
  ∀ (s : State) (l c : Nat), s.status.st ≠ .busy → l < 2 ^ s.lenW → c < 2 ^ s.lenW →
    ∃ t, exec (.start l c) s = .next t ∧
      t.len = l ∧ t.cap = c ∧ t.k = 0 ∧ t.p = .tst ∧ t.count = 0 ∧
      t.status.disc.val = l % 5 ∧ (t.status.notice = true ↔ l % 5 ≠ 0) ∧
      (4 * (l / 5) ≤ c →
        t.status.st = .busy ∧ t.status.cause = .noCause ∧ t.events.fail = false) ∧
      (4 * (l / 5) > c →
        t.status.st = .fail ∧ t.status.cause = .resourceExhausted ∧ t.events.fail = true) ∧
      t.events.done = false ∧ (t.events.notice = true ↔ l % 5 ≠ 0) ∧
      (l % 5 = 0 → t.diag = s.diag) ∧
      (l % 5 ≠ 0 → ∃ r : DiagRecord, t.diag = s.diag ++ [r] ∧ r.code.code = 1 ∧ r.disc.val = l % 5) ∧
      t = { s with
        len := l, cap := c, k := 0, p := .tst, count := 0, status := t.status,
        events := t.events, diag := t.diag, hist := t.hist }

/-- R172: the entry into failure, taken by an accepted START without room: ST, CAUSE and the line FAIL;
the operands, DISC and NOTICE are kept, COUNT, K and P are 0, no element of either space is touched,
and in the state it leaves no micro-operation does anything. -/
def Obligations.StartFailsWithoutRoom : Prop :=
  ∀ (s : State) (l c : Nat), s.status.st ≠ .busy → l < 2 ^ s.lenW → c < 2 ^ s.lenW →
    4 * (l / 5) > c →
    ∃ t, exec (.start l c) s = .next t ∧
      t.status.st = .fail ∧ t.status.cause = .resourceExhausted ∧ t.events.fail = true ∧
      t.len = l ∧ t.cap = c ∧
      t.status.disc.val = l % 5 ∧ (t.status.notice = true ↔ l % 5 ≠ 0) ∧
      t.count = 0 ∧ t.k = 0 ∧ t.p = .tst ∧
      t.inMem = s.inMem ∧ t.outMem = s.outMem ∧
      (∀ i v, HistEvent.read i v ∉ t.hist.drop s.hist.length) ∧
      ∀ i : Instr, i.agent = .engine → exec i t = .next { t with events := EventLines.low }

/-- R174: an accepted START with `L mod 5 != 0` reports the tail in all three forms at once, whether or
not the call fails: one record on DIAG, the line NOTICE, and STATUS.NOTICE with STATUS.DISC; one with
`L mod 5 = 0` reports nothing.  The notice does not decide ST. -/
def Obligations.StartEmitsTheNoticeOfItsTail : Prop :=
  ∀ (s : State) (l c : Nat), s.status.st ≠ .busy → l < 2 ^ s.lenW → c < 2 ^ s.lenW →
    ∃ t, exec (.start l c) s = .next t ∧
      (l % 5 ≠ 0 → (∃ r : DiagRecord, t.diag = s.diag ++ [r] ∧ r.code = .truncation ∧
          r.disc.val = l % 5 ∧ r.bits.toNat = 8 + l % 5) ∧
        t.events.notice = true ∧ t.status.notice = true ∧ t.status.disc.val = l % 5) ∧
      (l % 5 = 0 → t.diag = s.diag ∧ t.events.notice = false ∧ t.status.notice = false ∧
        t.status.disc = 0) ∧
      (t.status.st = .fail ↔ 4 * (l / 5) > c) ∧ (t.status.st = .busy ↔ 4 * (l / 5) ≤ c)

/-- R103: a START presented while BUSY is ignored (of the two meanings R103 allows the model takes this
one, log 8). -/
def Obligations.StartWhileBusyIsIgnored : Prop :=
  ∀ (s : State) (l c : Nat), s.status.st = .busy → l < 2 ^ s.lenW → c < 2 ^ s.lenW →
    exec (.start l c) s = .next { s with events := EventLines.low }

/-- R84: operands that do not fit LEN_W bits are refused, never truncated (log 10). -/
def Obligations.StartRefusesOperandsThatDoNotFit : Prop :=
  ∀ (s : State) (l c : Nat), 2 ^ s.lenW ≤ l ∨ 2 ^ s.lenW ≤ c →
    exec (.start l c) s = .refused .startOperandTooWide

/-- R189: a call with no words to write cannot fail, whatever the capacity. -/
def Obligations.EmptyOutputNeverFails : Prop :=
  ∀ (s : State) (l c : Nat), s.status.st ≠ .busy → l ≤ 4 → l < 2 ^ s.lenW → c < 2 ^ s.lenW →
    ∃ t, exec (.start l c) s = .next t ∧ t.status.st = .busy

/-! ### Micro-operations (R141 to R151) -/

/-- R141: TST changes only P (and lowers the event lines), by an integer comparison that does not
wrap; it is the same as asking for a complete block. -/
def Obligations.TstBranchesOnACompleteBlock : Prop :=
  ∀ s : State, s.status.st = .busy →
    ∃ t, exec .tst s = .next t ∧
      (5 * s.k + 5 ≤ s.len → t.p = .ldb0) ∧
      (s.len < 5 * s.k + 5 → t.p = .fin) ∧
      (t.p = .ldb0 ↔ s.k < s.len / 5) ∧
      t = { s with p := t.p, events := EventLines.low }

/-- R142 to R146: LDB`i` loads `IN[5*K + i]` into `S[i]`, goes on to the next position, and changes
nothing else. -/
def Obligations.LoadsStageOneByte : Prop :=
  ∀ s : State, s.status.st = .busy →
    let v := fun i : Nat => inAt s (5 * s.k + i)
    let h := fun i : Nat => s.hist ++ [HistEvent.read (5 * s.k + i) (v i)]
    exec .ldb0 s = .next { s with
      stg := { s.stg with s0 := v 0 }, p := .ldb1, events := EventLines.low, hist := h 0 } ∧
    exec .ldb1 s = .next { s with
      stg := { s.stg with s1 := v 1 }, p := .ldb2, events := EventLines.low, hist := h 1 } ∧
    exec .ldb2 s = .next { s with
      stg := { s.stg with s2 := v 2 }, p := .ldb3, events := EventLines.low, hist := h 2 } ∧
    exec .ldb3 s = .next { s with
      stg := { s.stg with s3 := v 3 }, p := .ldb4, events := EventLines.low, hist := h 3 } ∧
    exec .ldb4 s = .next { s with
      stg := { s.stg with s4 := v 4 }, p := .ext0, events := EventLines.low, hist := h 4 }

/-- R147 to R149: EXT0, EXT1, EXT2 write their lane's word to `OUT[EA_OUT(K, n)]` and no other
element, count it, go on to the next position, and change nothing else. -/
def Obligations.ExtractsWriteTheirWord : Prop :=
  ∀ s : State, s.status.st = .busy →
    (∃ t, exec .ext0 s = .next t ∧
      (outAt t (eaOut s.k 0)).toNat = s.stg.s0.toNat * 4 + s.stg.s1.toNat / 64 ∧
      (∀ j, j ≠ eaOut s.k 0 → outAt t j = outAt s j) ∧
      t = { s with outMem := t.outMem, count := succReg s.lenW s.count, p := .ext1,
                   events := EventLines.low,
                   hist := s.hist ++ [.write (eaOut s.k 0) (outAt t (eaOut s.k 0))] }) ∧
    (∃ t, exec .ext1 s = .next t ∧
      (outAt t (eaOut s.k 1)).toNat = (s.stg.s1.toNat % 64) * 16 + s.stg.s2.toNat / 16 ∧
      (∀ j, j ≠ eaOut s.k 1 → outAt t j = outAt s j) ∧
      t = { s with outMem := t.outMem, count := succReg s.lenW s.count, p := .ext2,
                   events := EventLines.low,
                   hist := s.hist ++ [.write (eaOut s.k 1) (outAt t (eaOut s.k 1))] }) ∧
    (∃ t, exec .ext2 s = .next t ∧
      (outAt t (eaOut s.k 2)).toNat = (s.stg.s2.toNat % 16) * 64 + s.stg.s3.toNat / 4 ∧
      (∀ j, j ≠ eaOut s.k 2 → outAt t j = outAt s j) ∧
      t = { s with outMem := t.outMem, count := succReg s.lenW s.count, p := .ext3,
                   events := EventLines.low,
                   hist := s.hist ++ [.write (eaOut s.k 2) (outAt t (eaOut s.k 2))] })

/-- R150: EXT3 writes with K before the increment, counts, and goes to the next block. -/
def Obligations.LastExtractGoesToTheNextBlock : Prop :=
  ∀ s : State, s.status.st = .busy →
    ∃ t, exec .ext3 s = .next t ∧
      (outAt t (eaOut s.k 3)).toNat = (s.stg.s3.toNat % 4) * 256 + s.stg.s4.toNat ∧
      (∀ j, j ≠ eaOut s.k 3 → outAt t j = outAt s j) ∧
      t = { s with outMem := t.outMem, count := succReg s.lenW s.count, k := succReg s.lenW s.k, p := .tst,
                   events := EventLines.low,
                   hist := s.hist ++ [.write (eaOut s.k 3) (outAt t (eaOut s.k 3))] }

/-- R151: FIN makes the block DONE, raises the line DONE, and changes nothing else; in a state that
meets the invariant of the registers, P is 10, `K = LEN div 5` and `COUNT = 4 * (LEN div 5)` there. -/
def Obligations.FinEndsTheCall : Prop :=
  ∀ s : State, s.status.st = .busy →
    ∃ t, exec .fin s = .next t ∧ t.status.st = .done ∧
      t.events = { done := true, fail := false, notice := false } ∧
      t = { s with status := { s.status with st := .done }, events := t.events,
                   hist := s.hist ++ [.eventDone] } ∧
      (ControlInv s → s.p = .fin →
        t.p.code = 10 ∧ t.k = t.len / 5 ∧ t.count = 4 * (t.len / 5))

/-! ### The HOST's accesses (R57, R110) -/

/-- R110: a read of a result register has no side effect on the block or the spaces and gives its
value, at any time (the list of values read is the model's own, log 5). -/
def Obligations.ResultRegistersCanBeReadAtAnyTime : Prop :=
  ∀ s : State,
    let got := fun (r : ControlReg) (v : Nat) =>
      { s with hostLog := s.hostLog ++ [.reg r v], events := EventLines.low }
    hostAccess (.readReg .status) s = .next (got .status
      (s.status.cause.code * 64 + s.status.disc.val * 8 + s.status.notice.toNat * 4 +
        s.status.st.code)) ∧
    hostAccess (.readReg .len) s = .next (got .len s.len) ∧
    hostAccess (.readReg .cap) s = .next (got .cap s.cap) ∧
    hostAccess (.readReg .count) s = .next (got .count s.count)

/-- R57, R41, R42: the HOST writes one element of either space and reads OUT, but while a call runs not
`IN[i]`, `i < LEN`, nor `OUT[j]`, `j < CAP`.  That its accesses outside these bounds are carried out
during a call is log 7; that what it reads stands in a list of the state is log 5. -/
def Obligations.HostOwnsTheSpacesOutsideACall : Prop :=
  (∀ (s : State) (i : Nat) (v : Byte), ¬(s.status.st = .busy ∧ i < s.len) →
    ∃ t, hostAccess (.writeIn i v) s = .next t ∧ inAt t i = v ∧
      (∀ a, a ≠ i → inAt t a = inAt s a) ∧
      t = { s with inMem := t.inMem, events := EventLines.low }) ∧
  (∀ (s : State) (j : Nat) (v : Word16), ¬(s.status.st = .busy ∧ j < s.cap) →
    ∃ t, hostAccess (.writeOut j v) s = .next t ∧ outAt t j = v ∧
      (∀ a, a ≠ j → outAt t a = outAt s a) ∧
      t = { s with outMem := t.outMem, events := EventLines.low }) ∧
  (∀ (s : State) (j : Nat), ¬(s.status.st = .busy ∧ j < s.cap) →
    hostAccess (.readOut j) s = .next
      { s with hostLog := s.hostLog ++ [.out j (outAt s j)], events := EventLines.low }) ∧
  (∀ (s : State) (i : Nat) (v : Byte), s.status.st = .busy → i < s.len →
    hostAccess (.writeIn i v) s = .refused .hostWritesInputDuringCall) ∧
  (∀ (s : State) (j : Nat) (v : Word16), s.status.st = .busy → j < s.cap →
    hostAccess (.writeOut j v) s = .refused .hostWritesOutputDuringCall ∧
    hostAccess (.readOut j) s = .refused .hostReadsOutputDuringCall)

/-! ### Rules of the whole machine -/

/-- R21: the transitions of STATUS.ST, each where it is taken, and no other. -/
def Obligations.StatusChangesOnlyAsListed : Prop :=
  ∀ s t : State, step s = .next t →
    (nextTurn s = .operation .rst → t.status.st = .idle) ∧
    (∀ l c, nextTurn s = .operation (.start l c) → s.status.st ≠ .busy →
      (4 * (l / 5) ≤ c → t.status.st = .busy) ∧ (4 * (l / 5) > c → t.status.st = .fail)) ∧
    (nextTurn s = .operation .fin → s.status.st = .busy → t.status.st = .done) ∧
    (t.status.st ≠ s.status.st →
      nextTurn s = .operation .rst ∨
      (s.status.st ≠ .busy ∧ ∃ l c, nextTurn s = .operation (.start l c)) ∨
      (s.status.st = .busy ∧ nextTurn s = .operation .fin))

/-- R25, R11: which operation writes which register; none changes LEN_W. -/
def Obligations.RegistersAreWrittenOnlyAsListed : Prop :=
  ∀ (i : Instr) (s t : State), exec i s = .next t →
    (∀ n : Fin 5, t.stg.get n ≠ s.stg.get n →
      i = .rst ∨ i = #v[Instr.ldb0, Instr.ldb1, Instr.ldb2, Instr.ldb3, Instr.ldb4][n]) ∧
    t.lenW = s.lenW ∧
    (t.k ≠ s.k → i = .rst ∨ (∃ l c, i = .start l c) ∨ i = .ext3) ∧
    (t.p ≠ s.p → i ≠ .fin) ∧
    (t.len ≠ s.len → i = .rst ∨ ∃ l c, i = .start l c) ∧
    (t.cap ≠ s.cap → i = .rst ∨ ∃ l c, i = .start l c) ∧
    (t.count ≠ s.count →
      i = .rst ∨ (∃ l c, i = .start l c) ∨ i = .ext0 ∨ i = .ext1 ∨ i = .ext2 ∨ i = .ext3) ∧
    (t.status.st ≠ s.status.st → i = .rst ∨ (∃ l c, i = .start l c) ∨ i = .fin) ∧
    (t.status.notice ≠ s.status.notice → i = .rst ∨ ∃ l c, i = .start l c) ∧
    (t.status.disc ≠ s.status.disc → i = .rst ∨ ∃ l c, i = .start l c) ∧
    (t.status.cause ≠ s.status.cause → i = .rst ∨ ∃ l c, i = .start l c)

/-- R40: no operation writes IN; only the extracts write OUT, one element each; only START appends to
DIAG, at most one record, and nothing is withdrawn. -/
def Obligations.SpacesAreReachedOnlyAsListed : Prop :=
  ∀ (i : Instr) (s t : State), exec i s = .next t →
    (∀ a, inAt t a = inAt s a) ∧
    (∀ j, outAt t j ≠ outAt s j →
      (i = .ext0 ∧ j = eaOut s.k 0) ∨ (i = .ext1 ∧ j = eaOut s.k 1) ∨
      (i = .ext2 ∧ j = eaOut s.k 2) ∨ (i = .ext3 ∧ j = eaOut s.k 3)) ∧
    (t.diag = s.diag ∨ ∃ l c r, i = .start l c ∧ t.diag = s.diag ++ [r])

/-- R83: what an extract writes is at most 1023, bits 15:10 zero; and no operation leaves another value
in an element it changes. -/
def Obligations.WordsWrittenHaveTenBits : Prop :=
  (∀ (s : State) (n : Fin 4), s.status.st = .busy →
    ∃ t, exec (#v[Instr.ext0, Instr.ext1, Instr.ext2, Instr.ext3][n]) s = .next t ∧
      (outAt t (eaOut s.k n.val)).extractLsb' 10 6 = 0#6) ∧
  (∀ (i : Instr) (s t : State) (j : Nat), exec i s = .next t → outAt t j ≠ outAt s j →
    (outAt t j).toNat ≤ 1023 ∧ (outAt t j).extractLsb' 10 6 = 0#6)

/-- R176: an event line is high after a step exactly if the step raises it: DONE in FIN, FAIL in a START
that fails, NOTICE in a START with a tail; and its sticky copy in STATUS is set by that same step. -/
def Obligations.EventLinesAreHighForOneStep : Prop :=
  ∀ s t : State, step s = .next t →
    (t.events.done = true ↔ nextTurn s = .operation .fin ∧ s.status.st = .busy) ∧
    (t.events.fail = true ↔ s.status.st ≠ .busy ∧
      ∃ l c, nextTurn s = .operation (.start l c) ∧ 4 * (l / 5) > c) ∧
    (t.events.notice = true ↔ s.status.st ≠ .busy ∧
      ∃ l c, nextTurn s = .operation (.start l c) ∧ l % 5 ≠ 0) ∧
    (t.events.done = true → t.status.st = .done) ∧
    (t.events.fail = true → t.status.st = .fail ∧ t.status.cause = .resourceExhausted) ∧
    (t.events.notice = true → t.status.notice = true ∧ t.status.disc ≠ 0)

/-! ### Invariants (R33, R79) -/

/-- Every step keeps both spaces in canonical form (the model's own form, log 3). -/
def Obligations.StepKeepsTheMemoryForm : Prop :=
  ∀ s t : State, MemoryInv s → step s = .next t → MemoryInv t

/-- R33, V1 to V6, V9, V10: every step keeps the invariant of the registers, their widths with it. -/
def Obligations.StepKeepsTheControlInvariant : Prop :=
  ∀ s t : State, ControlInv s → step s = .next t → ControlInv t ∧ t.lenW = s.lenW

/-- R33, V7, V8: every step keeps the staged bytes and the written words of a running call right; and
every step but a HOST write into a result in place keeps the words of an ended call right (log 15). -/
def Obligations.StepKeepsTheDataInvariant : Prop :=
  ∀ s t : State, ControlInv s → DataInv s → step s = .next t →
    DataInv t ∧ (ResultInv s → ¬OverwritesResult s → ResultInv t)

/-- R79: every step keeps DIAG to the four records that can occur. -/
def Obligations.StepKeepsNoticesLegal : Prop :=
  ∀ s t : State, NoticesLegal s → step s = .next t → NoticesLegal t

/-- The state after reset, for every LEN_W and with whatever turns of the HOST to come, meets every
invariant (that nothing is listed in the spaces or on DIAG there is the model's choice, logs 3 and
9). -/
def Obligations.ResetMeetsTheInvariants : Prop :=
  ∀ (w : Nat) (moves : List HostMove),
    let s : State := { State.resetOf w with pending := moves }
    MemoryInv s ∧ ControlInv s ∧ DataInv s ∧ ResultInv s ∧ NoticesLegal s

/-- R33: in every state a run from reset reaches, for every LEN_W R7 allows and whatever the HOST does,
V1 to V7, V9, V10 and V8 in BUSY hold; and where the HOST leaves results in place, as in every run of
RST, START and ENGINE steps, V8 holds in DONE too (log 15). -/
def Obligations.ReachableStatesMeetTheInvariants : Prop :=
  (∀ s : State, Reachable s →
    3 ≤ s.lenW ∧ MemoryInv s ∧ ControlInv s ∧ DataInv s ∧ NoticesLegal s) ∧
  (∀ s : State, ReachableInPlace s → Reachable s ∧ ResultInv s)

/-- R20: STATUS is the number of the rule, and is read back from its byte field by field; with the
invariant of the registers it has one of sixteen values (table T-STATUS). -/
def Obligations.StatusByteHasItsFields : Prop :=
  (∀ t : Status,
    t.byte.toNat = t.cause.code * 64 + t.disc.val * 8 + t.notice.toNat * 4 + t.st.code ∧
    (t.byte.extractLsb' 0 2).toNat = t.st.code ∧
    (t.byte.extractLsb' 2 1).toNat = t.notice.toNat ∧
    (t.byte.extractLsb' 3 3).toNat = t.disc.val ∧
    (t.byte.extractLsb' 6 2).toNat = t.cause.code) ∧
  (∀ w, (State.resetOf w).status.byte = 0x00#8) ∧
  (∀ s : State, ControlInv s → s.status.byte ∈
    ([0x00, 0x01, 0x0D, 0x15, 0x1D, 0x25, 0x02, 0x0E, 0x16, 0x1E, 0x26, 0x43, 0x4F, 0x57, 0x5F,
      0x67] : List (BitVec 8)))

/-- R161, R154: in a state of a running call that meets the invariant of the registers, K and COUNT are
within NBLK and NEED, TST's sum within `LEN + 5`; the index a load uses is below LEN, the index an
extract uses is below NEED and CAP; and counting K or COUNT up by one does not overflow. -/
def Obligations.AddressesAreInBounds : Prop :=
  ∀ s : State, ControlInv s → s.status.st = .busy →
    s.k ≤ s.len / 5 ∧ s.count ≤ 4 * (s.len / 5) ∧
    5 * s.k + 5 ≤ s.len + 5 ∧ s.count ≤ s.len ∧
    (s.p ≠ .tst → s.p ≠ .fin →
      (∀ i, i ≤ 4 → eaIn s.k i < s.len) ∧
      (∀ n, n ≤ 3 → eaOut s.k n < 4 * (s.len / 5) ∧ eaOut s.k n < s.cap) ∧
      succReg s.lenW s.k = s.k + 1 ∧ succReg s.lenW s.count = s.count + 1) ∧
    s.len < 2 ^ s.lenW

/-! ### The datapath (R120 to R133) -/

/-- R127, R122 to R125: the four formulas are the four fields of the window. -/
def Obligations.FormulasAreTheFieldsOfTheWindow : Prop :=
  ∀ b0 b1 b2 b3 b4 : Byte,
    let v := window b0 b1 b2 b3 b4
    b0.toNat * 4 + b1.toNat / 64 = (v.extractLsb' 30 10).toNat ∧
    (b1.toNat % 64) * 16 + b2.toNat / 16 = (v.extractLsb' 20 10).toNat ∧
    (b2.toNat % 16) * 64 + b3.toNat / 4 = (v.extractLsb' 10 10).toNat ∧
    (b3.toNat % 4) * 256 + b4.toNat = (v.extractLsb' 0 10).toNat

/-- R120, R121, R126: the shared shifter, the lane formula and the block function agree. -/
def Obligations.ShifterLaneAndBlockFunctionAgree : Prop :=
  (∀ (n : Fin 4) (hi lo : Byte), (bsh n hi lo).toNat = lane n hi lo) ∧
  (∀ (n : Fin 4) (b0 b1 b2 b3 b4 : Byte),
    unpack40 b0 b1 b2 b3 b4 n = lane n (#v[b0, b1, b2, b3, b4][n.castSucc])
      (#v[b0, b1, b2, b3, b4][n.succ]) ∧
    unpack40 b0 b1 b2 b3 b4 n = (field (window b0 b1 b2 b3 b4) n).toNat)

/-- R128, R129: a lane result is at most 1023, the bound is reached, and widening keeps the value. -/
def Obligations.LaneResultsHaveTenBits : Prop :=
  ∀ (n : Fin 4), (∀ hi lo : Byte, lane n hi lo ≤ 1023 ∧ (zext16 (lane n hi lo)).toNat = lane n hi lo)
    ∧ lane n 255 255 = 1023

/-- R132: the block function loses nothing, and the words of every four values of ten bits are those of
the window that is the four put together, cut into five bytes. -/
def Obligations.BlockFunctionIsABijection : Prop :=
  (∀ a0 a1 a2 a3 a4 b0 b1 b2 b3 b4 : Byte,
    (∀ n, unpack40 a0 a1 a2 a3 a4 n = unpack40 b0 b1 b2 b3 b4 n) →
    a0 = b0 ∧ a1 = b1 ∧ a2 = b2 ∧ a3 = b3 ∧ a4 = b4) ∧
  (∀ w0 w1 w2 w3 : BitVec 10, ∃ b0 b1 b2 b3 b4 : Byte,
    window b0 b1 b2 b3 b4 = w0 ++ w1 ++ w2 ++ w3 ∧
    unpack40 b0 b1 b2 b3 b4 0 = w0.toNat ∧ unpack40 b0 b1 b2 b3 b4 1 = w1.toNat ∧
    unpack40 b0 b1 b2 b3 b4 2 = w2.toNat ∧ unpack40 b0 b1 b2 b3 b4 3 = w3.toNat)

/-! ### The reference function (R104 to R113) -/

/-- R104: there are `4 * (L div 5)` words; word `j` carries the ten bits that start at bit offset `10*j`
of the input, read as one big-endian bit string, and they are field `n` of the window of block `k`,
where `j = 4*k + n`. -/
def Obligations.WordsAreTheBitsAtTheirOffset : Prop :=
  ∀ bytes : List Byte,
    (unpack bytes).words.length = 4 * (bytes.length / 5) ∧
    (∀ j, j < 4 * (bytes.length / 5) →
      (unpack bytes).words[j]? =
        some ((bitString bytes / 2 ^ (8 * bytes.length - 10 * j - 10)) % 2 ^ 10)) ∧
    (∀ (k : Nat) (n : Fin 4), k < bytes.length / 5 →
      (unpack bytes).words[4 * k + n.val]? =
        some (field (window (bytes.getD (5 * k) 0) (bytes.getD (5 * k + 1) 0)
          (bytes.getD (5 * k + 2) 0) (bytes.getD (5 * k + 3) 0) (bytes.getD (5 * k + 4) 0)) n).toNat)

/-- R109, R106, R107: the counts and the notice of a call, and the range of its words. -/
def Obligations.UnpackCountsAndReportsTheTail : Prop :=
  ∀ bytes : List Byte,
    (unpack bytes).words.length = 4 * (bytes.length / 5) ∧
    (unpack bytes).count = 4 * (bytes.length / 5) ∧
    (bytes.length % 5 = 0 → (unpack bytes).notice = none) ∧
    (bytes.length % 5 ≠ 0 → (unpack bytes).notice = some (bytes.length % 5)) ∧
    (unpack (bytes.take (bytes.length - bytes.length % 5))).words = (unpack bytes).words ∧
    ∀ w ∈ (unpack bytes).words, w ≤ 1023

/-- R113: the concatenation law, and that it fails where the first length is no multiple of 5. -/
def Obligations.UnpackOfAConcatenation : Prop :=
  (∀ a b : List Byte, a.length % 5 = 0 →
    (unpack (a ++ b)).words = (unpack a).words ++ (unpack b).words ∧
    (unpack (a ++ b)).count = (unpack a).count + (unpack b).count ∧
    (unpack (a ++ b)).notice = (unpack b).notice) ∧
  (∃ a b : List Byte, a.length % 5 ≠ 0 ∧
    (unpack (a ++ b)).words ≠ (unpack a).words ++ (unpack b).words)

/-- R133: the words of a block are a function of the block's own five bytes. -/
def Obligations.BlocksAreIndependent : Prop :=
  ∀ (a b : List Byte) (k : Nat), k < a.length / 5 → k < b.length / 5 →
    (∀ i, i < 5 → a[5 * k + i]? = b[5 * k + i]?) →
    ∀ n, n < 4 → (unpack a).words[4 * k + n]? = (unpack b).words[4 * k + n]?

/-! ### The run of a call (R153 to R163) -/

/-- R163: a call the HOST leaves alone, from any state that is not BUSY, ends as the reference function
says. -/
def Obligations.CallMeetsTheReferenceFunction : Prop :=
  ∀ (s : State) (l c : Nat), CallPremises s l c →
    let r := unpackCall (inputBytes s l) c
    ∃ t, steps (callSteps l c) (presentStart s l c) = .next t ∧
      t.status.st = (match r.outcome with | .done => St.done | .fail => St.fail) ∧
      (t.status.cause = .resourceExhausted ↔ r.outcome = .fail) ∧
      t.count = r.count ∧
      (∀ j, j < r.count → some (outAt t j).toNat = r.words[j]?) ∧
      (∀ j, r.count ≤ j → outAt t j = outAt s j) ∧
      (∀ i, inAt t i = inAt s i) ∧
      (∀ d, r.notice = some d → t.status.notice = true ∧ t.status.disc.val = d ∧
        ∃ x : DiagRecord, t.diag = s.diag ++ [x] ∧ x.code = .truncation ∧ x.disc.val = d) ∧
      (r.notice = none → t.status.notice = false ∧ t.status.disc = 0 ∧ t.diag = s.diag) ∧
      t.len = l ∧ t.cap = c ∧
      (t.hist.drop s.hist.length).count .eventDone + (t.hist.drop s.hist.length).count .eventFail = 1

/-- R158, R162: a call the HOST leaves alone is, with room, BUSY after START for exactly `10*NBLK + 2`
ENGINE steps and then DONE; without room it is FAIL after START and no ENGINE step changes that. -/
def Obligations.CallTakesTenStepsABlockAndTwo : Prop :=
  ∀ (s : State) (l c : Nat), CallPremises s l c →
    (4 * (l / 5) ≤ c →
      (∀ n, n < 10 * (l / 5) + 2 →
        ∃ t, steps (1 + n) (presentStart s l c) = .next t ∧ t.status.st = .busy) ∧
      ∃ t, steps (1 + (10 * (l / 5) + 2)) (presentStart s l c) = .next t ∧ t.status.st = .done) ∧
    (4 * (l / 5) > c →
      ∀ n, ∃ t, steps (1 + n) (presentStart s l c) = .next t ∧ t.status.st = .fail)

/-- R153, R88: the operations of a call are those of the pseudo-operation CALL, in that order and
nothing else. -/
def Obligations.CallPerformsItsSequence : Prop :=
  ∀ (s : State) (l c : Nat), CallPremises s l c →
    performed (callSteps l c) (presentStart s l c) = pseudoCall l c ∧
    (pseudoCall l c).length = callSteps l c

/-- R50, R51, R163: what a call adds to the history: each byte of a complete block read once and each
word written once, block by block in ascending order, no tail byte read, one notice if there is a tail,
and exactly one of the events DONE and FAIL, once.  (The order is that of the reference ENGINE, log
14.) -/
def Obligations.CallAccessesEachElementOnceInOrder : Prop :=
  ∀ (s : State) (l c : Nat), CallPremises s l c →
    ∃ t, steps (callSteps l c) (presentStart s l c) = .next t ∧
      t.hist = s.hist ++ callHistory (inAt s) l c

/-- R29: nothing survives a call: two calls with the same operands and the same input bytes, from any
two states, end alike. -/
def Obligations.CallsDoNotDependOnThePast : Prop :=
  ∀ (s u : State) (l c : Nat), CallPremises s l c → CallPremises u l c →
    (∀ i, i < l → inAt s i = inAt u i) →
    ∃ t v, steps (callSteps l c) (presentStart s l c) = .next t ∧
      steps (callSteps l c) (presentStart u l c) = .next v ∧
      t.status = v.status ∧ t.len = v.len ∧ t.cap = v.cap ∧ t.count = v.count ∧
      t.k = v.k ∧ t.p = v.p ∧ t.events = v.events ∧
      (∀ j, j < t.count → outAt t j = outAt v j) ∧
      t.diag.drop s.diag.length = v.diag.drop u.diag.length

/-- R156: control never depends on data, nor on CAP: two running blocks of the same LEN_W with the same LEN and
position perform the same operations and stay at the same position, whatever is in S, IN, OUT, COUNT
and CAP. -/
def Obligations.ControlDoesNotDependOnData : Prop :=
  ∀ (s u : State) (n : Nat), s.status.st = .busy → u.status.st = .busy →
    s.pending = [] → u.pending = [] →
    s.lenW = u.lenW → s.len = u.len → s.k = u.k → s.p = u.p →
    performed n s = performed n u ∧
    ∃ t v, steps n s = .next t ∧ steps n u = .next v ∧
      t.k = v.k ∧ t.p = v.p ∧ t.status.st = v.status.st

/-- R160: the ten steps of a block do what `BLOCKSTEP` does to OUT, COUNT and K, and nothing else but
to S and the history. -/
def Obligations.TenStepsAreOneBlockStep : Prop :=
  ∀ s : State, s.status.st = .busy → s.pending = [] → s.p = .tst →
    5 * s.k + 5 ≤ s.len →
    ∃ t, steps 10 s = .next t ∧
      t = { blockStep s with stg := t.stg, events := EventLines.low, hist := t.hist } ∧
      ∀ i : Fin 5, t.stg.get i = inAt s (5 * s.k + i.val)

/-- R203: an RST in a running call keeps the words already written, which are final, writes no other
element, raises no event, and COUNT reads 0. -/
def Obligations.RstAbandonsACall : Prop :=
  ∀ s : State, ControlInv s → DataInv s → s.status.st = .busy →
    ∃ t, exec .rst s = .next t ∧ t.status.st = .idle ∧ t.count = 0 ∧
      t.events = EventLines.low ∧ t.diag = s.diag ∧
      (∀ j, j < s.count → (outAt t j).toNat = wordOf (inAt s) j) ∧
      (∀ j, s.count ≤ j → outAt t j = outAt s j)

/-- R110, R26, R164: after a call, steps that are the ENGINE's change nothing any more: the result
holds until the HOST's next command. -/
def Obligations.ResultsHoldUntilTheNextCommand : Prop :=
  ∀ (s : State) (n : Nat), s.status.st = .done ∨ s.status.st = .fail → s.pending = [] →
    steps (n + 1) s = .next { s with events := EventLines.low }

/-- R56: when the call is DONE, a HOST read of `OUT[j]`, `j < COUNT`, gives the word of the call. -/
def Obligations.WordsAreReadableAtDone : Prop :=
  ∀ (s : State) (j : Nat), ControlInv s → DataInv s → s.status.st = .busy → s.p = .fin →
    s.pending = [.engine, .access (.readOut j)] → j < s.count →
    ∃ t v, steps 2 s = .next t ∧ t.status.st = .done ∧
      t.hostLog = s.hostLog ++ [.out j v] ∧ v.toNat = wordOf (inAt s) j

/-- R105: a call with `L = 0`, whatever its capacity, ends DONE after TST and FIN with no words, no
notice and no access to either space. -/
def Obligations.EmptyInputEndsDoneUntouched : Prop :=
  ∀ (s : State) (c : Nat), s.status.st ≠ .busy → c < 2 ^ s.lenW →
    performed 3 (presentStart s 0 c) = [.start 0 c, .tst, .fin] ∧
    ∃ t, steps 3 (presentStart s 0 c) = .next t ∧ t.status.byte = 0x02#8 ∧ t.count = 0 ∧
      t.diag = s.diag ∧ t.inMem = s.inMem ∧ t.outMem = s.outMem ∧
      t.hist = s.hist ++ [.cmdStart 0 c, .eventDone]

/-- R210: a stream fed in two calls, the first of a length that is a multiple of 5, gives the words of
one call: the second call's words follow the first's. -/
def Obligations.StreamCutAtABlockBoundary : Prop :=
  ∀ (bytes : List Byte) (m : Nat), 5 * m ≤ bytes.length →
    (unpack (bytes.take (5 * m))).notice = none ∧
    (unpack (bytes.take (5 * m))).words ++ (unpack (bytes.drop (5 * m))).words =
      (unpack bytes).words ∧
    (unpack (bytes.drop (5 * m))).notice = (unpack bytes).notice

/-! ### Calls in any interleaving with the HOST's turns (R217) -/

/-- R217, R163: under the premises of R217, and whatever else the HOST does between the ENGINE's steps,
the call ends as the reference function says, after the ENGINE steps of R158.  (The HOST may write
`OUT[j]`, `CAP <= j`, itself: log 7.) -/
def Obligations.CallsInAnyInterleavingMeetTheReference : Prop :=
  ∀ (s : State) (bytes : List Byte) (c : Nat), CallClaim s bytes c →
    let r := unpackCall bytes c
    ∀ (n : Nat) (t : State), CallEnd s n t →
      n = (if r.outcome = .done then 10 * (bytes.length / 5) + 2 else 0) ∧
      t.status.st = (match r.outcome with | .done => St.done | .fail => St.fail) ∧
      (t.status.cause = .resourceExhausted ↔ r.outcome = .fail) ∧
      t.count = r.count ∧
      (∀ j, j < r.count → some (outAt t j).toNat = r.words[j]?) ∧
      (∀ j, r.count ≤ j → j < c → outAt t j = outAt s j) ∧
      (∀ i, i < bytes.length → inAt t i = inAt s i) ∧
      (∀ d, r.notice = some d → t.status.notice = true ∧ t.status.disc.val = d ∧
        ∃ x : DiagRecord, t.diag = s.diag ++ [x] ∧ x.code = .truncation ∧ x.disc.val = d) ∧
      (r.notice = none → t.status.notice = false ∧ t.status.disc = 0 ∧ t.diag = s.diag) ∧
      t.len = bytes.length ∧ t.cap = c ∧
      (t.hist.drop s.hist.length).count .eventDone + (t.hist.drop s.hist.length).count .eventFail = 1

/-- R162, R216: under the premises of R217, and whatever else the HOST does between the ENGINE's steps,
the ENGINE always gets its turn again and the call ends.  (That the HOST's turns are a finite list is
log 5.) -/
def Obligations.CallsInAnyInterleavingEnd : Prop :=
  ∀ (s : State) (bytes : List Byte) (c : Nat), CallClaim s bytes c →
    PFair s ∧ ∃ n t, CallEnd s n t
end

