-- ==== Sys2Proof/Laws/Memory.lean ====
section
/-! SUPPORT. The laws of a space: read after write, and the canonical form. -/

namespace Sys2Proof.Machine

variable {w : Nat}

theorem Memory.lookup_write_same (m : Memory w) (a : Nat) (v : BitVec w) :
    Memory.lookup (Memory.write m a v) a = some v := by
  induction m with
  | nil => simp [Memory.write, Memory.lookup]
  | cons x m ih =>
    simp only [Memory.write]
    split
    · simp [Memory.lookup]
    · split
      · simp [Memory.lookup]
      · simp_all [Memory.lookup]

theorem Memory.lookup_write_other (m : Memory w) {a b : Nat} (v : BitVec w) (h : b ≠ a) :
    Memory.lookup (Memory.write m a v) b = Memory.lookup m b := by
  induction m with
  | nil => simp [Memory.write, Memory.lookup, h]
  | cons x m ih =>
    simp only [Memory.write]
    split
    · simp [Memory.lookup, h]
    · split
      · rename_i hax
        simp [Memory.lookup, h, ← hax]
      · simp [Memory.lookup, ih]

theorem Memory.lookup_write (m : Memory w) (a b : Nat) (v : BitVec w) :
    Memory.lookup (Memory.write m a v) b = if b = a then some v else Memory.lookup m b := by
  split
  · next h => rw [h, Memory.lookup_write_same]
  · next h => exact Memory.lookup_write_other m v h

/-- The indices listed after a write are the one written and those listed before. -/
theorem Memory.mem_write {m : Memory w} {a : Nat} {v : BitVec w} {x : Nat × BitVec w}
    (h : x ∈ Memory.write m a v) : x.1 = a ∨ x ∈ m := by
  induction m with
  | nil => simp [Memory.write] at h; exact .inl (by rw [h])
  | cons y m ih =>
    simp only [Memory.write] at h
    split at h
    · rcases List.mem_cons.mp h with rfl | h
      · exact .inl rfl
      · exact .inr h
    · split at h
      · rcases List.mem_cons.mp h with rfl | h
        · exact .inl rfl
        · exact .inr (List.mem_cons_of_mem _ h)
      · rcases List.mem_cons.mp h with rfl | h
        · exact .inr List.mem_cons_self
        · exact (ih h).imp_right (List.mem_cons_of_mem _)

/-- A write keeps the canonical form. -/
theorem Memory.write_wf {m : Memory w} (a : Nat) (v : BitVec w) (h : m.wf) :
    (Memory.write m a v).wf := by
  induction m with
  | nil => simp [Memory.write]
  | cons y m ih =>
    obtain ⟨hy, hm⟩ := List.pairwise_cons.mp h
    simp only [Memory.write]
    split
    · next hlt =>
      refine List.pairwise_cons.mpr ⟨fun x hx => ?_, h⟩
      rcases List.mem_cons.mp hx with rfl | hx
      · exact hlt
      · exact Nat.lt_trans hlt (hy x hx)
    · split
      · next heq => exact List.pairwise_cons.mpr ⟨fun x hx => heq ▸ hy x hx, hm⟩
      · next hlt hne =>
        refine List.pairwise_cons.mpr ⟨fun x hx => ?_, ih hm⟩
        rcases Memory.mem_write hx with hx | hx
        · dsimp only at *; omega
        · exact hy x hx

/-- An index below every listed one has nothing written to it. -/
theorem Memory.lookup_eq_none {m : Memory w} {a : Nat} (h : ∀ x ∈ m, a < x.1) :
    Memory.lookup m a = none := by
  induction m with
  | nil => rfl
  | cons y m ih =>
    have hy := h y List.mem_cons_self
    simp only [Memory.lookup]
    rw [if_neg (by omega)]
    exact ih fun x hx => h x (List.mem_cons_of_mem _ hx)

/-- Equal contents are equal data: two spaces in canonical form with the same elements are equal. -/
theorem Memory.ext_of_wf {m n : Memory w} (hm : m.wf) (hn : n.wf)
    (h : ∀ a, Memory.lookup m a = Memory.lookup n a) : m = n := by
  induction m generalizing n with
  | nil =>
    cases n with
    | nil => rfl
    | cons y n => have := h y.1; simp [Memory.lookup] at this
  | cons x m ih =>
    cases n with
    | nil => have := h x.1; simp [Memory.lookup] at this
    | cons y n =>
      obtain ⟨hx, hm⟩ := List.pairwise_cons.mp hm
      obtain ⟨hy, hn⟩ := List.pairwise_cons.mp hn
      have hxy : x.1 = y.1 := by
        rcases Nat.lt_trichotomy x.1 y.1 with hlt | heq | hgt
        · have h1 := h x.1
          rw [Memory.lookup_eq_none (m := y :: n)] at h1
          · simp [Memory.lookup] at h1
          · intro z hz
            rcases List.mem_cons.mp hz with rfl | hz
            · exact hlt
            · exact Nat.lt_trans hlt (hy z hz)
        · exact heq
        · have h1 := h y.1
          rw [Memory.lookup_eq_none (m := x :: m)] at h1
          · simp [Memory.lookup] at h1
          · intro z hz
            rcases List.mem_cons.mp hz with rfl | hz
            · exact hgt
            · exact Nat.lt_trans hgt (hx z hz)
      have hv : x.2 = y.2 := by
        have h1 := h x.1
        simpa [Memory.lookup, hxy] using h1
      have htail : m = n := by
        refine ih hm hn fun a => ?_
        by_cases ha : a = x.1
        · rw [ha, Memory.lookup_eq_none hx, Memory.lookup_eq_none (hxy ▸ hy)]
        · have h1 := h a
          simpa [Memory.lookup, ha, hxy ▸ ha] using h1
      rw [htail, Prod.ext hxy hv]

/-- Nothing written yet is the canonical form of reset (State.reset). -/
theorem Memory.nil_wf : Memory.wf ([] : Memory w) := List.Pairwise.nil

end Sys2Proof.Machine
end

