-- ==== Sys2Proof/Laws/State.lean ====
section
/-! SUPPORT. One lemma per field per update of State, true by rfl: a proof reads a field of an updated
state without unfolding the update. -/

namespace Sys2Proof.Machine

variable (s : State)

/-! ### lowerEvents -/

@[simp] theorem lowerEvents_lenW : (lowerEvents s).lenW = s.lenW := rfl
@[simp] theorem lowerEvents_stg : (lowerEvents s).stg = s.stg := rfl
@[simp] theorem lowerEvents_k : (lowerEvents s).k = s.k := rfl
@[simp] theorem lowerEvents_p : (lowerEvents s).p = s.p := rfl
@[simp] theorem lowerEvents_len : (lowerEvents s).len = s.len := rfl
@[simp] theorem lowerEvents_cap : (lowerEvents s).cap = s.cap := rfl
@[simp] theorem lowerEvents_count : (lowerEvents s).count = s.count := rfl
@[simp] theorem lowerEvents_status : (lowerEvents s).status = s.status := rfl
@[simp] theorem lowerEvents_events : (lowerEvents s).events = EventLines.low := rfl
@[simp] theorem lowerEvents_inMem : (lowerEvents s).inMem = s.inMem := rfl
@[simp] theorem lowerEvents_outMem : (lowerEvents s).outMem = s.outMem := rfl
@[simp] theorem lowerEvents_diag : (lowerEvents s).diag = s.diag := rfl
@[simp] theorem lowerEvents_pending : (lowerEvents s).pending = s.pending := rfl
@[simp] theorem lowerEvents_hostLog : (lowerEvents s).hostLog = s.hostLog := rfl
@[simp] theorem lowerEvents_hist : (lowerEvents s).hist = s.hist := rfl
@[simp] theorem lowerEvents_draws : (lowerEvents s).draws = s.draws := rfl
@[simp] theorem inAt_lowerEvents (a : Nat) : inAt (lowerEvents s) a = inAt s a := rfl
@[simp] theorem outAt_lowerEvents (a : Nat) : outAt (lowerEvents s) a = outAt s a := rfl

/-! ### record -/

@[simp] theorem record_lenW (e : HistEvent) : (record e s).lenW = s.lenW := rfl
@[simp] theorem record_stg (e : HistEvent) : (record e s).stg = s.stg := rfl
@[simp] theorem record_k (e : HistEvent) : (record e s).k = s.k := rfl
@[simp] theorem record_p (e : HistEvent) : (record e s).p = s.p := rfl
@[simp] theorem record_len (e : HistEvent) : (record e s).len = s.len := rfl
@[simp] theorem record_cap (e : HistEvent) : (record e s).cap = s.cap := rfl
@[simp] theorem record_count (e : HistEvent) : (record e s).count = s.count := rfl
@[simp] theorem record_status (e : HistEvent) : (record e s).status = s.status := rfl
@[simp] theorem record_events (e : HistEvent) : (record e s).events = s.events := rfl
@[simp] theorem record_inMem (e : HistEvent) : (record e s).inMem = s.inMem := rfl
@[simp] theorem record_outMem (e : HistEvent) : (record e s).outMem = s.outMem := rfl
@[simp] theorem record_diag (e : HistEvent) : (record e s).diag = s.diag := rfl
@[simp] theorem record_pending (e : HistEvent) : (record e s).pending = s.pending := rfl
@[simp] theorem record_hostLog (e : HistEvent) : (record e s).hostLog = s.hostLog := rfl
@[simp] theorem record_hist (e : HistEvent) : (record e s).hist = s.hist ++ [e] := rfl
@[simp] theorem record_draws (e : HistEvent) : (record e s).draws = s.draws := rfl
@[simp] theorem inAt_record (e : HistEvent) (a : Nat) : inAt (record e s) a = inAt s a := rfl
@[simp] theorem outAt_record (e : HistEvent) (a : Nat) : outAt (record e s) a = outAt s a := rfl

/-! ### raiseDone -/

@[simp] theorem raiseDone_lenW : (raiseDone s).lenW = s.lenW := rfl
@[simp] theorem raiseDone_stg : (raiseDone s).stg = s.stg := rfl
@[simp] theorem raiseDone_k : (raiseDone s).k = s.k := rfl
@[simp] theorem raiseDone_p : (raiseDone s).p = s.p := rfl
@[simp] theorem raiseDone_len : (raiseDone s).len = s.len := rfl
@[simp] theorem raiseDone_cap : (raiseDone s).cap = s.cap := rfl
@[simp] theorem raiseDone_count : (raiseDone s).count = s.count := rfl
@[simp] theorem raiseDone_status : (raiseDone s).status = s.status := rfl
@[simp] theorem raiseDone_events : (raiseDone s).events = { s.events with done := true } := rfl
@[simp] theorem raiseDone_inMem : (raiseDone s).inMem = s.inMem := rfl
@[simp] theorem raiseDone_outMem : (raiseDone s).outMem = s.outMem := rfl
@[simp] theorem raiseDone_diag : (raiseDone s).diag = s.diag := rfl
@[simp] theorem raiseDone_pending : (raiseDone s).pending = s.pending := rfl
@[simp] theorem raiseDone_hostLog : (raiseDone s).hostLog = s.hostLog := rfl
@[simp] theorem raiseDone_hist : (raiseDone s).hist = s.hist ++ [.eventDone] := rfl
@[simp] theorem raiseDone_draws : (raiseDone s).draws = s.draws := rfl
@[simp] theorem inAt_raiseDone (a : Nat) : inAt (raiseDone s) a = inAt s a := rfl
@[simp] theorem outAt_raiseDone (a : Nat) : outAt (raiseDone s) a = outAt s a := rfl

/-! ### raiseFailEvent -/

@[simp] theorem raiseFailEvent_lenW : (raiseFailEvent s).lenW = s.lenW := rfl
@[simp] theorem raiseFailEvent_stg : (raiseFailEvent s).stg = s.stg := rfl
@[simp] theorem raiseFailEvent_k : (raiseFailEvent s).k = s.k := rfl
@[simp] theorem raiseFailEvent_p : (raiseFailEvent s).p = s.p := rfl
@[simp] theorem raiseFailEvent_len : (raiseFailEvent s).len = s.len := rfl
@[simp] theorem raiseFailEvent_cap : (raiseFailEvent s).cap = s.cap := rfl
@[simp] theorem raiseFailEvent_count : (raiseFailEvent s).count = s.count := rfl
@[simp] theorem raiseFailEvent_status : (raiseFailEvent s).status = s.status := rfl
@[simp] theorem raiseFailEvent_events :
    (raiseFailEvent s).events = { s.events with fail := true } := rfl
@[simp] theorem raiseFailEvent_inMem : (raiseFailEvent s).inMem = s.inMem := rfl
@[simp] theorem raiseFailEvent_outMem : (raiseFailEvent s).outMem = s.outMem := rfl
@[simp] theorem raiseFailEvent_diag : (raiseFailEvent s).diag = s.diag := rfl
@[simp] theorem raiseFailEvent_pending : (raiseFailEvent s).pending = s.pending := rfl
@[simp] theorem raiseFailEvent_hostLog : (raiseFailEvent s).hostLog = s.hostLog := rfl
@[simp] theorem raiseFailEvent_hist : (raiseFailEvent s).hist = s.hist ++ [.eventFail] := rfl
@[simp] theorem raiseFailEvent_draws : (raiseFailEvent s).draws = s.draws := rfl
@[simp] theorem inAt_raiseFailEvent (a : Nat) : inAt (raiseFailEvent s) a = inAt s a := rfl
@[simp] theorem outAt_raiseFailEvent (a : Nat) : outAt (raiseFailEvent s) a = outAt s a := rfl

/-! ### memWrite -/

@[simp] theorem memWrite_lenW (j : Nat) (v : Word16) : (memWrite j v s).lenW = s.lenW := rfl
@[simp] theorem memWrite_stg (j : Nat) (v : Word16) : (memWrite j v s).stg = s.stg := rfl
@[simp] theorem memWrite_k (j : Nat) (v : Word16) : (memWrite j v s).k = s.k := rfl
@[simp] theorem memWrite_p (j : Nat) (v : Word16) : (memWrite j v s).p = s.p := rfl
@[simp] theorem memWrite_len (j : Nat) (v : Word16) : (memWrite j v s).len = s.len := rfl
@[simp] theorem memWrite_cap (j : Nat) (v : Word16) : (memWrite j v s).cap = s.cap := rfl
@[simp] theorem memWrite_count (j : Nat) (v : Word16) : (memWrite j v s).count = s.count := rfl
@[simp] theorem memWrite_status (j : Nat) (v : Word16) : (memWrite j v s).status = s.status := rfl
@[simp] theorem memWrite_events (j : Nat) (v : Word16) : (memWrite j v s).events = s.events := rfl
@[simp] theorem memWrite_inMem (j : Nat) (v : Word16) : (memWrite j v s).inMem = s.inMem := rfl
@[simp] theorem memWrite_outMem (j : Nat) (v : Word16) :
    (memWrite j v s).outMem = Memory.write s.outMem j v := rfl
@[simp] theorem memWrite_diag (j : Nat) (v : Word16) : (memWrite j v s).diag = s.diag := rfl
@[simp] theorem memWrite_pending (j : Nat) (v : Word16) :
    (memWrite j v s).pending = s.pending := rfl
@[simp] theorem memWrite_hostLog (j : Nat) (v : Word16) :
    (memWrite j v s).hostLog = s.hostLog := rfl
@[simp] theorem memWrite_hist (j : Nat) (v : Word16) :
    (memWrite j v s).hist = s.hist ++ [.write j v] := rfl
@[simp] theorem memWrite_draws (j : Nat) (v : Word16) : (memWrite j v s).draws = s.draws := rfl
@[simp] theorem inAt_memWrite (j : Nat) (v : Word16) (a : Nat) :
    inAt (memWrite j v s) a = inAt s a := rfl

/-! ### diagEmit -/

@[simp] theorem diagEmit_lenW (r : DiagRecord) : (diagEmit r s).lenW = s.lenW := rfl
@[simp] theorem diagEmit_stg (r : DiagRecord) : (diagEmit r s).stg = s.stg := rfl
@[simp] theorem diagEmit_k (r : DiagRecord) : (diagEmit r s).k = s.k := rfl
@[simp] theorem diagEmit_p (r : DiagRecord) : (diagEmit r s).p = s.p := rfl
@[simp] theorem diagEmit_len (r : DiagRecord) : (diagEmit r s).len = s.len := rfl
@[simp] theorem diagEmit_cap (r : DiagRecord) : (diagEmit r s).cap = s.cap := rfl
@[simp] theorem diagEmit_count (r : DiagRecord) : (diagEmit r s).count = s.count := rfl
@[simp] theorem diagEmit_status (r : DiagRecord) : (diagEmit r s).status = s.status := rfl
@[simp] theorem diagEmit_events (r : DiagRecord) :
    (diagEmit r s).events = { s.events with notice := true } := rfl
@[simp] theorem diagEmit_inMem (r : DiagRecord) : (diagEmit r s).inMem = s.inMem := rfl
@[simp] theorem diagEmit_outMem (r : DiagRecord) : (diagEmit r s).outMem = s.outMem := rfl
@[simp] theorem diagEmit_diag (r : DiagRecord) : (diagEmit r s).diag = s.diag ++ [r] := rfl
@[simp] theorem diagEmit_pending (r : DiagRecord) : (diagEmit r s).pending = s.pending := rfl
@[simp] theorem diagEmit_hostLog (r : DiagRecord) : (diagEmit r s).hostLog = s.hostLog := rfl
@[simp] theorem diagEmit_hist (r : DiagRecord) : (diagEmit r s).hist = s.hist ++ [.diag r] := rfl
@[simp] theorem diagEmit_draws (r : DiagRecord) : (diagEmit r s).draws = s.draws := rfl
@[simp] theorem inAt_diagEmit (r : DiagRecord) (a : Nat) : inAt (diagEmit r s) a = inAt s a := rfl
@[simp] theorem outAt_diagEmit (r : DiagRecord) (a : Nat) :
    outAt (diagEmit r s) a = outAt s a := rfl

/-! ### setPos -/

@[simp] theorem setPos_lenW (q : SeqPos) : (setPos q s).lenW = s.lenW := rfl
@[simp] theorem setPos_stg (q : SeqPos) : (setPos q s).stg = s.stg := rfl
@[simp] theorem setPos_k (q : SeqPos) : (setPos q s).k = s.k := rfl
@[simp] theorem setPos_p (q : SeqPos) : (setPos q s).p = q := rfl
@[simp] theorem setPos_len (q : SeqPos) : (setPos q s).len = s.len := rfl
@[simp] theorem setPos_cap (q : SeqPos) : (setPos q s).cap = s.cap := rfl
@[simp] theorem setPos_count (q : SeqPos) : (setPos q s).count = s.count := rfl
@[simp] theorem setPos_status (q : SeqPos) : (setPos q s).status = s.status := rfl
@[simp] theorem setPos_events (q : SeqPos) : (setPos q s).events = s.events := rfl
@[simp] theorem setPos_inMem (q : SeqPos) : (setPos q s).inMem = s.inMem := rfl
@[simp] theorem setPos_outMem (q : SeqPos) : (setPos q s).outMem = s.outMem := rfl
@[simp] theorem setPos_diag (q : SeqPos) : (setPos q s).diag = s.diag := rfl
@[simp] theorem setPos_pending (q : SeqPos) : (setPos q s).pending = s.pending := rfl
@[simp] theorem setPos_hostLog (q : SeqPos) : (setPos q s).hostLog = s.hostLog := rfl
@[simp] theorem setPos_hist (q : SeqPos) : (setPos q s).hist = s.hist := rfl
@[simp] theorem setPos_draws (q : SeqPos) : (setPos q s).draws = s.draws := rfl
@[simp] theorem inAt_setPos (q : SeqPos) (a : Nat) : inAt (setPos q s) a = inAt s a := rfl
@[simp] theorem outAt_setPos (q : SeqPos) (a : Nat) : outAt (setPos q s) a = outAt s a := rfl

/-! ### setStaging -/

@[simp] theorem setStaging_lenW (i : Fin 5) (v : Byte) : (setStaging i v s).lenW = s.lenW := rfl
@[simp] theorem setStaging_stg (i : Fin 5) (v : Byte) :
    (setStaging i v s).stg = s.stg.set i v := rfl
@[simp] theorem setStaging_k (i : Fin 5) (v : Byte) : (setStaging i v s).k = s.k := rfl
@[simp] theorem setStaging_p (i : Fin 5) (v : Byte) : (setStaging i v s).p = s.p := rfl
@[simp] theorem setStaging_len (i : Fin 5) (v : Byte) : (setStaging i v s).len = s.len := rfl
@[simp] theorem setStaging_cap (i : Fin 5) (v : Byte) : (setStaging i v s).cap = s.cap := rfl
@[simp] theorem setStaging_count (i : Fin 5) (v : Byte) : (setStaging i v s).count = s.count := rfl
@[simp] theorem setStaging_status (i : Fin 5) (v : Byte) :
    (setStaging i v s).status = s.status := rfl
@[simp] theorem setStaging_events (i : Fin 5) (v : Byte) :
    (setStaging i v s).events = s.events := rfl
@[simp] theorem setStaging_inMem (i : Fin 5) (v : Byte) : (setStaging i v s).inMem = s.inMem := rfl
@[simp] theorem setStaging_outMem (i : Fin 5) (v : Byte) :
    (setStaging i v s).outMem = s.outMem := rfl
@[simp] theorem setStaging_diag (i : Fin 5) (v : Byte) : (setStaging i v s).diag = s.diag := rfl
@[simp] theorem setStaging_pending (i : Fin 5) (v : Byte) :
    (setStaging i v s).pending = s.pending := rfl
@[simp] theorem setStaging_hostLog (i : Fin 5) (v : Byte) :
    (setStaging i v s).hostLog = s.hostLog := rfl
@[simp] theorem setStaging_hist (i : Fin 5) (v : Byte) : (setStaging i v s).hist = s.hist := rfl
@[simp] theorem setStaging_draws (i : Fin 5) (v : Byte) : (setStaging i v s).draws = s.draws := rfl
@[simp] theorem inAt_setStaging (i : Fin 5) (v : Byte) (a : Nat) :
    inAt (setStaging i v s) a = inAt s a := rfl
@[simp] theorem outAt_setStaging (i : Fin 5) (v : Byte) (a : Nat) :
    outAt (setStaging i v s) a = outAt s a := rfl

/-! ### bumpCount -/

@[simp] theorem bumpCount_lenW : (bumpCount s).lenW = s.lenW := rfl
@[simp] theorem bumpCount_stg : (bumpCount s).stg = s.stg := rfl
@[simp] theorem bumpCount_k : (bumpCount s).k = s.k := rfl
@[simp] theorem bumpCount_p : (bumpCount s).p = s.p := rfl
@[simp] theorem bumpCount_len : (bumpCount s).len = s.len := rfl
@[simp] theorem bumpCount_cap : (bumpCount s).cap = s.cap := rfl
@[simp] theorem bumpCount_count : (bumpCount s).count = succReg s.lenW s.count := rfl
@[simp] theorem bumpCount_status : (bumpCount s).status = s.status := rfl
@[simp] theorem bumpCount_events : (bumpCount s).events = s.events := rfl
@[simp] theorem bumpCount_inMem : (bumpCount s).inMem = s.inMem := rfl
@[simp] theorem bumpCount_outMem : (bumpCount s).outMem = s.outMem := rfl
@[simp] theorem bumpCount_diag : (bumpCount s).diag = s.diag := rfl
@[simp] theorem bumpCount_pending : (bumpCount s).pending = s.pending := rfl
@[simp] theorem bumpCount_hostLog : (bumpCount s).hostLog = s.hostLog := rfl
@[simp] theorem bumpCount_hist : (bumpCount s).hist = s.hist := rfl
@[simp] theorem bumpCount_draws : (bumpCount s).draws = s.draws := rfl
@[simp] theorem inAt_bumpCount (a : Nat) : inAt (bumpCount s) a = inAt s a := rfl
@[simp] theorem outAt_bumpCount (a : Nat) : outAt (bumpCount s) a = outAt s a := rfl

/-! ### bumpBlock -/

@[simp] theorem bumpBlock_lenW : (bumpBlock s).lenW = s.lenW := rfl
@[simp] theorem bumpBlock_stg : (bumpBlock s).stg = s.stg := rfl
@[simp] theorem bumpBlock_k : (bumpBlock s).k = succReg s.lenW s.k := rfl
@[simp] theorem bumpBlock_p : (bumpBlock s).p = s.p := rfl
@[simp] theorem bumpBlock_len : (bumpBlock s).len = s.len := rfl
@[simp] theorem bumpBlock_cap : (bumpBlock s).cap = s.cap := rfl
@[simp] theorem bumpBlock_count : (bumpBlock s).count = s.count := rfl
@[simp] theorem bumpBlock_status : (bumpBlock s).status = s.status := rfl
@[simp] theorem bumpBlock_events : (bumpBlock s).events = s.events := rfl
@[simp] theorem bumpBlock_inMem : (bumpBlock s).inMem = s.inMem := rfl
@[simp] theorem bumpBlock_outMem : (bumpBlock s).outMem = s.outMem := rfl
@[simp] theorem bumpBlock_diag : (bumpBlock s).diag = s.diag := rfl
@[simp] theorem bumpBlock_pending : (bumpBlock s).pending = s.pending := rfl
@[simp] theorem bumpBlock_hostLog : (bumpBlock s).hostLog = s.hostLog := rfl
@[simp] theorem bumpBlock_hist : (bumpBlock s).hist = s.hist := rfl
@[simp] theorem bumpBlock_draws : (bumpBlock s).draws = s.draws := rfl
@[simp] theorem inAt_bumpBlock (a : Nat) : inAt (bumpBlock s) a = inAt s a := rfl
@[simp] theorem outAt_bumpBlock (a : Nat) : outAt (bumpBlock s) a = outAt s a := rfl

/-! ### setSt -/

@[simp] theorem setSt_lenW (v : St) : (setSt v s).lenW = s.lenW := rfl
@[simp] theorem setSt_stg (v : St) : (setSt v s).stg = s.stg := rfl
@[simp] theorem setSt_k (v : St) : (setSt v s).k = s.k := rfl
@[simp] theorem setSt_p (v : St) : (setSt v s).p = s.p := rfl
@[simp] theorem setSt_len (v : St) : (setSt v s).len = s.len := rfl
@[simp] theorem setSt_cap (v : St) : (setSt v s).cap = s.cap := rfl
@[simp] theorem setSt_count (v : St) : (setSt v s).count = s.count := rfl
@[simp] theorem setSt_status (v : St) : (setSt v s).status = { s.status with st := v } := rfl
@[simp] theorem setSt_events (v : St) : (setSt v s).events = s.events := rfl
@[simp] theorem setSt_inMem (v : St) : (setSt v s).inMem = s.inMem := rfl
@[simp] theorem setSt_outMem (v : St) : (setSt v s).outMem = s.outMem := rfl
@[simp] theorem setSt_diag (v : St) : (setSt v s).diag = s.diag := rfl
@[simp] theorem setSt_pending (v : St) : (setSt v s).pending = s.pending := rfl
@[simp] theorem setSt_hostLog (v : St) : (setSt v s).hostLog = s.hostLog := rfl
@[simp] theorem setSt_hist (v : St) : (setSt v s).hist = s.hist := rfl
@[simp] theorem setSt_draws (v : St) : (setSt v s).draws = s.draws := rfl
@[simp] theorem inAt_setSt (v : St) (a : Nat) : inAt (setSt v s) a = inAt s a := rfl
@[simp] theorem outAt_setSt (v : St) (a : Nat) : outAt (setSt v s) a = outAt s a := rfl

/-! ### resetRegisters -/

@[simp] theorem resetRegisters_lenW : (resetRegisters s).lenW = s.lenW := rfl
@[simp] theorem resetRegisters_stg : (resetRegisters s).stg = Staging.unspecified s.draws := rfl
@[simp] theorem resetRegisters_k : (resetRegisters s).k = 0 := rfl
@[simp] theorem resetRegisters_p : (resetRegisters s).p = .tst := rfl
@[simp] theorem resetRegisters_len : (resetRegisters s).len = 0 := rfl
@[simp] theorem resetRegisters_cap : (resetRegisters s).cap = 0 := rfl
@[simp] theorem resetRegisters_count : (resetRegisters s).count = 0 := rfl
@[simp] theorem resetRegisters_status : (resetRegisters s).status = Status.idle := rfl
@[simp] theorem resetRegisters_events : (resetRegisters s).events = s.events := rfl
@[simp] theorem resetRegisters_inMem : (resetRegisters s).inMem = s.inMem := rfl
@[simp] theorem resetRegisters_outMem : (resetRegisters s).outMem = s.outMem := rfl
@[simp] theorem resetRegisters_diag : (resetRegisters s).diag = s.diag := rfl
@[simp] theorem resetRegisters_pending : (resetRegisters s).pending = s.pending := rfl
@[simp] theorem resetRegisters_hostLog : (resetRegisters s).hostLog = s.hostLog := rfl
@[simp] theorem resetRegisters_hist : (resetRegisters s).hist = s.hist := rfl
@[simp] theorem resetRegisters_draws : (resetRegisters s).draws = s.draws + 5 := rfl
@[simp] theorem inAt_resetRegisters (a : Nat) : inAt (resetRegisters s) a = inAt s a := rfl
@[simp] theorem outAt_resetRegisters (a : Nat) : outAt (resetRegisters s) a = outAt s a := rfl

/-! ### latchCall -/

@[simp] theorem latchCall_lenW (l c : Nat) : (latchCall l c s).lenW = s.lenW := rfl
@[simp] theorem latchCall_stg (l c : Nat) : (latchCall l c s).stg = s.stg := rfl
@[simp] theorem latchCall_k (l c : Nat) : (latchCall l c s).k = 0 := rfl
@[simp] theorem latchCall_p (l c : Nat) : (latchCall l c s).p = .tst := rfl
@[simp] theorem latchCall_len (l c : Nat) :
    (latchCall l c s).len = l := rfl
@[simp] theorem latchCall_cap (l c : Nat) :
    (latchCall l c s).cap = c := rfl
@[simp] theorem latchCall_count (l c : Nat) : (latchCall l c s).count = 0 := rfl
@[simp] theorem latchCall_status (l c : Nat) :
    (latchCall l c s).status = { s.status with cause := .noCause, disc := tailOf l, notice := noticeOf l } := rfl
@[simp] theorem latchCall_events (l c : Nat) : (latchCall l c s).events = s.events := rfl
@[simp] theorem latchCall_inMem (l c : Nat) : (latchCall l c s).inMem = s.inMem := rfl
@[simp] theorem latchCall_outMem (l c : Nat) : (latchCall l c s).outMem = s.outMem := rfl
@[simp] theorem latchCall_diag (l c : Nat) : (latchCall l c s).diag = s.diag := rfl
@[simp] theorem latchCall_pending (l c : Nat) : (latchCall l c s).pending = s.pending := rfl
@[simp] theorem latchCall_hostLog (l c : Nat) : (latchCall l c s).hostLog = s.hostLog := rfl
@[simp] theorem latchCall_hist (l c : Nat) : (latchCall l c s).hist = s.hist := rfl
@[simp] theorem latchCall_draws (l c : Nat) : (latchCall l c s).draws = s.draws := rfl
@[simp] theorem inAt_latchCall (l c : Nat) (a : Nat) : inAt (latchCall l c s) a = inAt s a := rfl
@[simp] theorem outAt_latchCall (l c : Nat) (a : Nat) : outAt (latchCall l c s) a = outAt s a := rfl

/-! ### raiseFail -/

@[simp] theorem raiseFail_lenW (c : Cause) : (raiseFail c s).lenW = s.lenW := rfl
@[simp] theorem raiseFail_stg (c : Cause) : (raiseFail c s).stg = s.stg := rfl
@[simp] theorem raiseFail_k (c : Cause) : (raiseFail c s).k = s.k := rfl
@[simp] theorem raiseFail_p (c : Cause) : (raiseFail c s).p = s.p := rfl
@[simp] theorem raiseFail_len (c : Cause) : (raiseFail c s).len = s.len := rfl
@[simp] theorem raiseFail_cap (c : Cause) : (raiseFail c s).cap = s.cap := rfl
@[simp] theorem raiseFail_count (c : Cause) : (raiseFail c s).count = s.count := rfl
@[simp] theorem raiseFail_status (c : Cause) :
    (raiseFail c s).status = { s.status with st := .fail, cause := c } := rfl
@[simp] theorem raiseFail_events (c : Cause) :
    (raiseFail c s).events = { s.events with fail := true } := rfl
@[simp] theorem raiseFail_inMem (c : Cause) : (raiseFail c s).inMem = s.inMem := rfl
@[simp] theorem raiseFail_outMem (c : Cause) : (raiseFail c s).outMem = s.outMem := rfl
@[simp] theorem raiseFail_diag (c : Cause) : (raiseFail c s).diag = s.diag := rfl
@[simp] theorem raiseFail_pending (c : Cause) : (raiseFail c s).pending = s.pending := rfl
@[simp] theorem raiseFail_hostLog (c : Cause) : (raiseFail c s).hostLog = s.hostLog := rfl
@[simp] theorem raiseFail_hist (c : Cause) : (raiseFail c s).hist = s.hist ++ [.eventFail] := rfl
@[simp] theorem raiseFail_draws (c : Cause) : (raiseFail c s).draws = s.draws := rfl
@[simp] theorem inAt_raiseFail (c : Cause) (a : Nat) : inAt (raiseFail c s) a = inAt s a := rfl
@[simp] theorem outAt_raiseFail (c : Cause) (a : Nat) : outAt (raiseFail c s) a = outAt s a := rfl

/-! ### giveHost -/

@[simp] theorem giveHost_lenW (v : HostRead) : (giveHost v s).lenW = s.lenW := rfl
@[simp] theorem giveHost_stg (v : HostRead) : (giveHost v s).stg = s.stg := rfl
@[simp] theorem giveHost_k (v : HostRead) : (giveHost v s).k = s.k := rfl
@[simp] theorem giveHost_p (v : HostRead) : (giveHost v s).p = s.p := rfl
@[simp] theorem giveHost_len (v : HostRead) : (giveHost v s).len = s.len := rfl
@[simp] theorem giveHost_cap (v : HostRead) : (giveHost v s).cap = s.cap := rfl
@[simp] theorem giveHost_count (v : HostRead) : (giveHost v s).count = s.count := rfl
@[simp] theorem giveHost_status (v : HostRead) : (giveHost v s).status = s.status := rfl
@[simp] theorem giveHost_events (v : HostRead) : (giveHost v s).events = s.events := rfl
@[simp] theorem giveHost_inMem (v : HostRead) : (giveHost v s).inMem = s.inMem := rfl
@[simp] theorem giveHost_outMem (v : HostRead) : (giveHost v s).outMem = s.outMem := rfl
@[simp] theorem giveHost_diag (v : HostRead) : (giveHost v s).diag = s.diag := rfl
@[simp] theorem giveHost_pending (v : HostRead) : (giveHost v s).pending = s.pending := rfl
@[simp] theorem giveHost_hostLog (v : HostRead) : (giveHost v s).hostLog = s.hostLog ++ [v] := rfl
@[simp] theorem giveHost_hist (v : HostRead) : (giveHost v s).hist = s.hist := rfl
@[simp] theorem giveHost_draws (v : HostRead) : (giveHost v s).draws = s.draws := rfl
@[simp] theorem inAt_giveHost (v : HostRead) (a : Nat) : inAt (giveHost v s) a = inAt s a := rfl
@[simp] theorem outAt_giveHost (v : HostRead) (a : Nat) : outAt (giveHost v s) a = outAt s a := rfl

/-! ### takeTurn -/

@[simp] theorem takeTurn_lenW : (takeTurn s).lenW = s.lenW := rfl
@[simp] theorem takeTurn_stg : (takeTurn s).stg = s.stg := rfl
@[simp] theorem takeTurn_k : (takeTurn s).k = s.k := rfl
@[simp] theorem takeTurn_p : (takeTurn s).p = s.p := rfl
@[simp] theorem takeTurn_len : (takeTurn s).len = s.len := rfl
@[simp] theorem takeTurn_cap : (takeTurn s).cap = s.cap := rfl
@[simp] theorem takeTurn_count : (takeTurn s).count = s.count := rfl
@[simp] theorem takeTurn_status : (takeTurn s).status = s.status := rfl
@[simp] theorem takeTurn_events : (takeTurn s).events = s.events := rfl
@[simp] theorem takeTurn_inMem : (takeTurn s).inMem = s.inMem := rfl
@[simp] theorem takeTurn_outMem : (takeTurn s).outMem = s.outMem := rfl
@[simp] theorem takeTurn_diag : (takeTurn s).diag = s.diag := rfl
@[simp] theorem takeTurn_pending : (takeTurn s).pending = s.pending.tail := rfl
@[simp] theorem takeTurn_hostLog : (takeTurn s).hostLog = s.hostLog := rfl
@[simp] theorem takeTurn_hist : (takeTurn s).hist = s.hist := rfl
@[simp] theorem takeTurn_draws : (takeTurn s).draws = s.draws := rfl
@[simp] theorem inAt_takeTurn (a : Nat) : inAt (takeTurn s) a = inAt s a := rfl
@[simp] theorem outAt_takeTurn (a : Nat) : outAt (takeTurn s) a = outAt s a := rfl

end Sys2Proof.Machine
end

