-- ==== Sys2Proof/Laws/Ops.lean ====
section
/-! SUPPORT. One lemma per shared operation, saying once everything it does; later proofs cite these and
do not unfold the operations. -/

namespace Sys2Proof.Machine

variable (s : State)

/-! ### The spaces -/

/-- Reading OUT after a write: the value where it was written, the old content elsewhere. -/
theorem outAt_memWrite (j : Nat) (v : Word16) (a : Nat) :
    outAt (memWrite j v s) a = if a = j then v else outAt s a := by
  unfold outAt
  rw [memWrite_outMem, Memory.lookup_write]
  split <;> rfl

/-- Reading IN after the HOST has placed a byte. -/
theorem inAt_write (i : Nat) (v : Byte) (a : Nat) :
    inAt { s with inMem := Memory.write s.inMem i v } a = if a = i then v else inAt s a := by
  unfold inAt
  rw [Memory.lookup_write]
  split <;> rfl

/-- Reading OUT after the HOST has written an element. -/
theorem outAt_write (j : Nat) (v : Word16) (a : Nat) :
    outAt { s with outMem := Memory.write s.outMem j v } a = if a = j then v else outAt s a := by
  unfold outAt
  rw [Memory.lookup_write]
  split <;> rfl

/-! ### Staging registers -/

theorem Staging.get_set (g : Staging) (i n : Fin 5) (v : Byte) :
    (g.set i v).get n = if n = i then v else g.get n := by
  fin_cases i <;> fin_cases n <;> rfl

/-! ### The ENGINE's step -/

theorem engineStep_of_busy (f : State → State) {s : State} (h : s.status.st = .busy) :
    engineStep f s = .next (f (lowerEvents s)) := if_pos h

theorem engineStep_of_not_busy (f : State → State) {s : State} (h : s.status.st ≠ .busy) :
    engineStep f s = .next (lowerEvents s) := if_neg h

/-- What an ENGINE step can be: the micro-operation on a BUSY block, or nothing. -/
theorem engineStep_next {f : State → State} {s t : State} (h : engineStep f s = .next t) :
    (s.status.st = .busy ∧ t = f (lowerEvents s)) ∨ (s.status.st ≠ .busy ∧ t = lowerEvents s) := by
  by_cases hb : s.status.st = .busy
  · rw [engineStep_of_busy f hb] at h
    exact .inl ⟨hb, (Host.Outcome.next.inj h).symm⟩
  · rw [engineStep_of_not_busy f hb] at h
    exact .inr ⟨hb, (Host.Outcome.next.inj h).symm⟩

/-- LDB`i` as one update of the state. -/
theorem loadByte_eq (i : Fin 5) (next : SeqPos) :
    loadByte i next s =
      { s with
        stg := s.stg.set i (inAt s (eaIn s.k i.val))
        p := next
        hist := s.hist ++ [.read (eaIn s.k i.val) (inAt s (eaIn s.k i.val))] } := rfl

/-- The shared part of the extracts as one update of the state. -/
theorem extractWord_eq (n : Fin 4) :
    extractWord n s =
      { s with
        outMem := Memory.write s.outMem (eaOut s.k n.val)
          (zext16 (lane n (s.stg.get n.castSucc) (s.stg.get n.succ)))
        count := succReg s.lenW s.count
        hist := s.hist ++ [.write (eaOut s.k n.val)
          (zext16 (lane n (s.stg.get n.castSucc) (s.stg.get n.succ)))] } := rfl

/-- OUT after an extract: the lane's word at its address, the old content elsewhere. -/
theorem outAt_extractWord (n : Fin 4) (a : Nat) :
    outAt (extractWord n s) a =
      if a = eaOut s.k n.val then zext16 (lane n (s.stg.get n.castSucc) (s.stg.get n.succ))
      else outAt s a := outAt_memWrite s _ _ a

/-! ### START's two decisions -/

theorem emitNotice_of_tail {l : Nat} (h : l % 5 ≠ 0) :
    emitNotice l s = diagEmit { code := .truncation, disc := tailOf l } s := if_pos h

theorem emitNotice_of_no_tail {l : Nat} (h : l % 5 = 0) : emitNotice l s = s :=
  if_neg fun hn => hn h

theorem checkCapacity_of_room {l c : Nat} (h : 4 * (l / 5) ≤ c) :
    checkCapacity l c s = setSt .busy s := if_neg (Nat.not_lt.mpr h)

theorem checkCapacity_of_no_room {l c : Nat} (h : 4 * (l / 5) > c) :
    checkCapacity l c s = raiseFail .resourceExhausted s := if_pos h

theorem tailOf_val (l : Nat) : (tailOf l).val = l % 5 := rfl

theorem noticeOf_iff (l : Nat) : noticeOf l = true ↔ l % 5 ≠ 0 := by simp [noticeOf]

theorem fitsLenW_iff (w n : Nat) : fitsLenW w n = true ↔ n < 2 ^ w := by simp [fitsLenW]

/-- What START can do with operands that fit. -/
theorem execStart_of_fits {s : State} {l c : Nat} (hl : l < 2 ^ s.lenW) (hc : c < 2 ^ s.lenW) :
    execStart l c s =
      if s.status.st = .busy then .next (lowerEvents s)
      else .next (checkCapacity l c
        (emitNotice l (latchCall l c (record (.cmdStart l c) (lowerEvents s))))) := by
  simp [execStart, (fitsLenW_iff s.lenW l).mpr hl, (fitsLenW_iff s.lenW c).mpr hc]

/-- Operands that do not fit are refused. -/
theorem execStart_of_not_fits {s : State} {l c : Nat} (h : ¬(l < 2 ^ s.lenW ∧ c < 2 ^ s.lenW)) :
    execStart l c s = .refused .startOperandTooWide := by
  have hw : (fitsLenW s.lenW l && fitsLenW s.lenW c) = false := by
    rw [← Bool.not_eq_true, Bool.and_eq_true, fitsLenW_iff, fitsLenW_iff]
    exact h
  simp only [execStart, hw]
  rfl

/-! ### Widths -/

/-- Counting up by one does not wrap where the result still fits. -/
theorem succReg_of_fits {w x : Nat} (h : x + 1 < 2 ^ w) : succReg w x = x + 1 := Nat.mod_eq_of_lt h

/-- A register that has been counted up holds a number of its width. -/
theorem succReg_lt (w x : Nat) : succReg w x < 2 ^ w := Nat.mod_lt _ (Nat.two_pow_pos w)

theorem code_le (p : SeqPos) : p.code.toNat ≤ 10 := by
  cases p <;> decide

theorem cmdLen_fits (w c : Nat) : cmdLen w c < 2 ^ w := Nat.mod_lt _ (Nat.two_pow_pos w)

/-- The CAP of a number fits exactly when the number is a word of the port. -/
theorem cmdCap_fits_iff (w c : Nat) : cmdCap w c < 2 ^ w ↔ c < 2 ^ (2 * w) := by
  rw [cmdCap, Nat.div_lt_iff_lt_mul (Nat.two_pow_pos w), ← Nat.pow_add, Nat.two_mul]

/-- The command word of a START reads back as its operands. -/
theorem decodeCmd_cmdWord {w l : Nat} (c : Nat) (hl : l < 2 ^ w) :
    decodeCmd w (cmdWord w l c) = .start l c := by
  have hp := Nat.two_pow_pos w
  simp only [decodeCmd, cmdLen, cmdCap, cmdWord, Instr.start.injEq]
  constructor
  · rw [Nat.add_comm, Nat.add_mul_mod_self_right, Nat.mod_eq_of_lt hl]
  · rw [Nat.add_comm, Nat.add_mul_div_right _ _ hp, Nat.div_eq_of_lt hl, Nat.zero_add]

/-- The command word of operands that fit is a word of the port. -/
theorem cmdWord_fits {w l c : Nat} (hl : l < 2 ^ w) (hc : c < 2 ^ w) :
    cmdWord w l c < 2 ^ (2 * w) := by
  have h : (c + 1) * 2 ^ w ≤ 2 ^ w * 2 ^ w := Nat.mul_le_mul_right _ hc
  rw [Nat.two_mul, Nat.pow_add, cmdWord]
  rw [Nat.add_mul, Nat.one_mul] at h
  omega

/-! ### Steps -/

theorem takeTurn_of_nil {s : State} (h : s.pending = []) : takeTurn s = s := by
  cases s
  simp_all [takeTurn]

/-- With nothing pending the step is the micro-operation at P. -/
theorem step_of_nil {s : State} (h : s.pending = []) : step s = exec (dec s.p) s := by
  simp only [step, nextTurn, h, takeTurn_of_nil h]

theorem step_of_engine {s : State} {ms : List HostMove} (h : s.pending = .engine :: ms) :
    step s = exec (dec s.p) { s with pending := ms } := by
  simp only [step, nextTurn, h, takeTurn, List.tail_cons]

theorem step_of_rst {s : State} {ms : List HostMove} (h : s.pending = .rst :: ms) :
    step s = exec .rst { s with pending := ms } := by
  simp only [step, nextTurn, h, takeTurn, List.tail_cons]

theorem step_of_start {s : State} {w : Nat} {ms : List HostMove}
    (h : s.pending = .start w :: ms) :
    step s = exec (decodeCmd s.lenW w) { s with pending := ms } := by
  simp only [step, nextTurn, h, takeTurn, List.tail_cons]

theorem step_of_access {s : State} {a : HostAccess} {ms : List HostMove}
    (h : s.pending = .access a :: ms) : step s = hostAccess a { s with pending := ms } := by
  simp only [step, nextTurn, h, takeTurn, List.tail_cons]

theorem steps_succ (n : Nat) {s t : State} (h : step s = .next t) : steps (n + 1) s = steps n t := by
  simp only [steps, h]

/-- A run cut in two. -/
theorem steps_add (m n : Nat) {s t : State} (h : steps m s = .next t) :
    steps (m + n) s = steps n t := by
  induction m generalizing s with
  | zero => simp only [steps] at h; rw [Host.Outcome.next.inj h, Nat.zero_add]
  | succ m ih =>
    rw [Nat.add_right_comm]
    simp only [steps] at h ⊢
    split at h
    · next u hu => simpa only [hu] using ih h
    · cases h
    · cases h

/-- `steps` is the host's own run of the machine. -/
theorem steps_eq_run (n : Nat) : steps n s = Host.Core.run Sys2Proof.core n s := by
  induction n generalizing s with
  | zero => rfl
  | succ n ih =>
    simp only [steps, Host.Core.run]
    have hstep : Sys2Proof.core.step s = step s := rfl
    rw [hstep]
    cases step s with
    | next t => exact ih t
    | fault r => rfl
    | refused r => rfl

end Sys2Proof.Machine
end

