-- ==== Sys2Proof/Laws/PerInstr.lean ====
section
/-! SUPPORT. Laws of the operations as syntax, one lemma per constructor. -/

namespace Sys2Proof.Laws.EncodesOnItsPort

/-- The word of an operation stands on an input of the agent that performs it: HOST commands on the
reset input and the command port, micro-operations in P (R75, R76, R77, R78). -/
def Statement (i : Instr) : Prop := ∀ w : Nat, (encode w i).agent = i.agent

theorem rst : Statement .rst := fun _ => rfl

theorem start (len cap : Nat) : Statement (.start len cap) := fun _ => rfl

theorem tst : Statement .tst := fun _ => rfl

theorem ldb0 : Statement .ldb0 := fun _ => rfl

theorem ldb1 : Statement .ldb1 := fun _ => rfl

theorem ldb2 : Statement .ldb2 := fun _ => rfl

theorem ldb3 : Statement .ldb3 := fun _ => rfl

theorem ldb4 : Statement .ldb4 := fun _ => rfl

theorem ext0 : Statement .ext0 := fun _ => rfl

theorem ext1 : Statement .ext1 := fun _ => rfl

theorem ext2 : Statement .ext2 := fun _ => rfl

theorem ext3 : Statement .ext3 := fun _ => rfl

theorem fin : Statement .fin := fun _ => rfl

end Sys2Proof.Laws.EncodesOnItsPort
end

