-- ==== Sys2Proof/Laws/Step.lean ====
section
/-! SUPPORT. What one step can do, said once: the micro-operation of each position as a function on
states, and the inversion lemma of step. -/

namespace Sys2Proof.Machine

/-- The effect of the micro-operation at a position on a BUSY block. -/
def microOp (p : SeqPos) (t : State) : State :=
  match p with
  | .tst => setPos (if eaIn t.k 5 ≤ t.len then .ldb0 else .fin) t
  | .ldb0 => loadByte 0 .ldb1 t
  | .ldb1 => loadByte 1 .ldb2 t
  | .ldb2 => loadByte 2 .ldb3 t
  | .ldb3 => loadByte 3 .ldb4 t
  | .ldb4 => loadByte 4 .ext0 t
  | .ext0 => setPos .ext1 (extractWord 0 t)
  | .ext1 => setPos .ext2 (extractWord 1 t)
  | .ext2 => setPos .ext3 (extractWord 2 t)
  | .ext3 => setPos .tst (bumpBlock (extractWord 3 t))
  | .fin => raiseDone (setSt .done t)

/-! What a micro-operation leaves alone (R25, R40). -/

section Frame

variable (p : SeqPos) (t : State)

@[simp] theorem microOp_lenW : (microOp p t).lenW = t.lenW := by cases p <;> rfl
@[simp] theorem microOp_len : (microOp p t).len = t.len := by cases p <;> rfl
@[simp] theorem microOp_cap : (microOp p t).cap = t.cap := by cases p <;> rfl
@[simp] theorem microOp_inMem : (microOp p t).inMem = t.inMem := by cases p <;> rfl
@[simp] theorem microOp_diag : (microOp p t).diag = t.diag := by cases p <;> rfl
@[simp] theorem microOp_pending : (microOp p t).pending = t.pending := by cases p <;> rfl
@[simp] theorem microOp_hostLog : (microOp p t).hostLog = t.hostLog := by cases p <;> rfl
@[simp] theorem microOp_draws : (microOp p t).draws = t.draws := by cases p <;> rfl

/-- Only FIN writes STATUS. -/
theorem microOp_status {p : SeqPos} (h : p ≠ .fin) (t : State) :
    (microOp p t).status = t.status := by
  cases p with
  | fin => exact absurd rfl h
  | _ => rfl

end Frame

/-- Executing DEC(P) is the ENGINE's step with that effect. -/
theorem exec_dec (p : SeqPos) (s : State) : exec (dec p) s = engineStep (microOp p) s := by
  cases p <;> rfl

theorem exec_dec_of_busy (p : SeqPos) {s : State} (h : s.status.st = .busy) :
    exec (dec p) s = .next (microOp p (lowerEvents s)) := by
  rw [exec_dec, engineStep_of_busy _ h]

theorem exec_dec_of_not_busy (p : SeqPos) {s : State} (h : s.status.st ≠ .busy) :
    exec (dec p) s = .next (lowerEvents s) := by
  rw [exec_dec, engineStep_of_not_busy _ h]

/-- The ENGINE's step on a BUSY block. -/
theorem step_of_busy {s : State} (hb : s.status.st = .busy) (hp : s.pending = []) :
    step s = .next (microOp s.p (lowerEvents s)) := by
  rw [step_of_nil hp, exec_dec_of_busy _ hb]

/-- The ENGINE's step where it has none. -/
theorem step_of_not_busy {s : State} (hb : s.status.st ≠ .busy) (hp : s.pending = []) :
    step s = .next (lowerEvents s) := by
  rw [step_of_nil hp, exec_dec_of_not_busy _ hb]

/-- The state an accepted START leaves. -/
def startCall (l c : Nat) (s : State) : State :=
  checkCapacity l c (emitNotice l (latchCall l c (record (.cmdStart l c) (lowerEvents s))))

theorem exec_start_of_not_busy {l c : Nat} {s : State} (hl : l < 2 ^ s.lenW)
    (hc : c < 2 ^ s.lenW) (h : s.status.st ≠ .busy) :
    exec (.start l c) s = .next (startCall l c s) := by
  show execStart l c s = _
  rw [execStart_of_fits hl hc, if_neg h]
  rfl

theorem exec_start_of_busy {l c : Nat} {s : State} (hl : l < 2 ^ s.lenW)
    (hc : c < 2 ^ s.lenW) (h : s.status.st = .busy) :
    exec (.start l c) s = .next (lowerEvents s) := by
  show execStart l c s = _
  rw [execStart_of_fits hl hc, if_pos h]

/-- Everything an accepted START does. -/
theorem startCall_spec (l c : Nat) (s : State) :
    startCall l c s =
      { s with
        k := 0, p := .tst, len := l, cap := c, count := 0
        status :=
          { st := if 4 * (l / 5) ≤ c then .busy else .fail
            notice := noticeOf l
            disc := tailOf l
            cause := if 4 * (l / 5) ≤ c then .noCause else .resourceExhausted }
        events := { done := false, fail := decide (c < 4 * (l / 5)), notice := noticeOf l }
        diag := s.diag ++ (if l % 5 = 0 then [] else [{ code := .truncation, disc := tailOf l }])
        hist := s.hist ++ .cmdStart l c ::
          ((if l % 5 = 0 then [] else [.diag { code := .truncation, disc := tailOf l }]) ++
            if 4 * (l / 5) ≤ c then [] else [.eventFail]) } := by
  unfold startCall
  by_cases hr : 4 * (l / 5) ≤ c
  · have hr' : ¬c < 4 * (l / 5) := Nat.not_lt.mpr hr
    rw [checkCapacity_of_room _ hr]
    by_cases ht : l % 5 = 0
    · rw [emitNotice_of_no_tail _ ht]
      simp [setSt, latchCall, record, lowerEvents, EventLines.low, noticeOf, ht, hr, hr']
    · rw [emitNotice_of_tail _ ht]
      simp [setSt, latchCall, record, lowerEvents, EventLines.low, noticeOf, ht, hr, hr', diagEmit]
  · have hr' : c < 4 * (l / 5) := Nat.not_le.mp hr
    rw [checkCapacity_of_no_room _ hr']
    by_cases ht : l % 5 = 0
    · rw [emitNotice_of_no_tail _ ht]
      simp [latchCall, record, lowerEvents, EventLines.low, noticeOf, ht, hr, hr', raiseFail,
        raiseFailEvent]
    · rw [emitNotice_of_tail _ ht]
      simp [latchCall, record, lowerEvents, EventLines.low, noticeOf, ht, hr, hr', raiseFail,
        raiseFailEvent, diagEmit]

/-- Every ENGINE operation is DEC of a position. -/
theorem exists_pos_of_engine {i : Instr} (h : i.agent = .engine) : ∃ p, dec p = i := by
  cases i with
  | rst => cases h
  | start => cases h
  | tst => exact ⟨.tst, rfl⟩
  | ldb0 => exact ⟨.ldb0, rfl⟩
  | ldb1 => exact ⟨.ldb1, rfl⟩
  | ldb2 => exact ⟨.ldb2, rfl⟩
  | ldb3 => exact ⟨.ldb3, rfl⟩
  | ldb4 => exact ⟨.ldb4, rfl⟩
  | ext0 => exact ⟨.ext0, rfl⟩
  | ext1 => exact ⟨.ext1, rfl⟩
  | ext2 => exact ⟨.ext2, rfl⟩
  | ext3 => exact ⟨.ext3, rfl⟩
  | fin => exact ⟨.fin, rfl⟩

/-- What an operation that answers a next state can have done. -/
theorem exec_next {i : Instr} {s t : State} (h : exec i s = .next t) :
    (i = .rst ∧ t = record .cmdRst (resetRegisters (lowerEvents s))) ∨
    (∃ l c, i = .start l c ∧ l < 2 ^ s.lenW ∧ c < 2 ^ s.lenW ∧
      ((s.status.st = .busy ∧ t = lowerEvents s) ∨
       (s.status.st ≠ .busy ∧ t = startCall l c s))) ∨
    (∃ p, i = dec p ∧
      ((s.status.st = .busy ∧ t = microOp p (lowerEvents s)) ∨
       (s.status.st ≠ .busy ∧ t = lowerEvents s))) := by
  cases hi : i with
  | rst =>
    subst hi
    exact .inl ⟨rfl, (Host.Outcome.next.inj h).symm⟩
  | start l c =>
    subst hi
    refine .inr (.inl ⟨l, c, rfl, ?_⟩)
    by_cases hf : l < 2 ^ s.lenW ∧ c < 2 ^ s.lenW
    · refine ⟨hf.1, hf.2, ?_⟩
      by_cases hb : s.status.st = .busy
      · rw [exec_start_of_busy hf.1 hf.2 hb] at h
        exact .inl ⟨hb, (Host.Outcome.next.inj h).symm⟩
      · rw [exec_start_of_not_busy hf.1 hf.2 hb] at h
        exact .inr ⟨hb, (Host.Outcome.next.inj h).symm⟩
    · rw [show exec (.start l c) s = execStart l c s from rfl, execStart_of_not_fits hf] at h
      cases h
  | _ =>
    obtain ⟨p, hp⟩ := exists_pos_of_engine (i := i) (by rw [hi]; rfl)
    refine .inr (.inr ⟨p, by rw [hp, hi], ?_⟩)
    rw [← hp, exec_dec] at h
    exact engineStep_next h

/-- Reading an element of OUT that the HOST may read. -/
theorem hostAccess_readOut {j : Nat} {s : State} (h : ¬(s.status.st = .busy ∧ j < s.cap)) :
    hostAccess (.readOut j) s = .next (giveHost (.out j (outAt s j)) (lowerEvents s)) := by
  simp only [hostAccess, if_neg h]

/-- What an access of the HOST that answers a next state can have done. -/
theorem hostAccess_next {a : HostAccess} {s t : State} (h : hostAccess a s = .next t) :
    (∃ i v, a = .writeIn i v ∧ ¬(s.status.st = .busy ∧ i < s.len) ∧
      t = lowerEvents { s with inMem := Memory.write s.inMem i v }) ∨
    (∃ j v, a = .writeOut j v ∧ ¬(s.status.st = .busy ∧ j < s.cap) ∧
      t = lowerEvents { s with outMem := Memory.write s.outMem j v }) ∨
    (∃ x, t = giveHost x (lowerEvents s)) := by
  cases a with
  | writeIn i v =>
    simp only [hostAccess] at h
    split at h
    · cases h
    · next hn => exact .inl ⟨i, v, rfl, hn, (Host.Outcome.next.inj h).symm⟩
  | writeOut j v =>
    simp only [hostAccess] at h
    split at h
    · cases h
    · next hn => exact .inr (.inl ⟨j, v, rfl, hn, (Host.Outcome.next.inj h).symm⟩)
  | readOut j =>
    simp only [hostAccess] at h
    split at h
    · cases h
    · exact .inr (.inr ⟨_, (Host.Outcome.next.inj h).symm⟩)
  | readReg r => exact .inr (.inr ⟨_, (Host.Outcome.next.inj h).symm⟩)

/-- What a step that answers a next state can have done. -/
theorem step_next {s t : State} (h : step s = .next t) :
    (nextTurn s = .operation .rst ∧
      t = record .cmdRst (resetRegisters (lowerEvents (takeTurn s)))) ∨
    (∃ l c, nextTurn s = .operation (.start l c) ∧ l < 2 ^ s.lenW ∧ c < 2 ^ s.lenW ∧
      ((s.status.st = .busy ∧ t = lowerEvents (takeTurn s)) ∨
       (s.status.st ≠ .busy ∧ t = startCall l c (takeTurn s)))) ∨
    (nextTurn s = .operation (dec s.p) ∧
      ((s.status.st = .busy ∧ t = microOp s.p (lowerEvents (takeTurn s))) ∨
       (s.status.st ≠ .busy ∧ t = lowerEvents (takeTurn s)))) ∨
    (∃ a, nextTurn s = .access a ∧ hostAccess a (takeTurn s) = .next t) := by
  have engine : nextTurn s = .operation (dec s.p) →
      (nextTurn s = .operation (dec s.p) ∧
        ((s.status.st = .busy ∧ t = microOp s.p (lowerEvents (takeTurn s))) ∨
         (s.status.st ≠ .busy ∧ t = lowerEvents (takeTurn s)))) := fun hn => by
    simp only [step, hn, exec_dec] at h
    exact ⟨hn, engineStep_next h⟩
  cases hp : s.pending with
  | nil => exact .inr (.inr (.inl (engine (by simp only [nextTurn, hp]))))
  | cons m ms =>
    cases m with
    | engine => exact .inr (.inr (.inl (engine (by simp only [nextTurn, hp]))))
    | rst =>
      have hn : nextTurn s = .operation .rst := by simp only [nextTurn, hp]
      simp only [step, hn] at h
      exact .inl ⟨hn, (Host.Outcome.next.inj h).symm⟩
    | start w =>
      have hn : nextTurn s = .operation (decodeCmd s.lenW w) := by simp only [nextTurn, hp]
      simp only [step, hn] at h
      refine .inr (.inl ?_)
      rcases exec_next h with ⟨hi, -⟩ | ⟨l, c, hi, hl, hc, hs⟩ | ⟨p, hi, -⟩
      · cases hi
      · exact ⟨l, c, by rw [hn, hi], hl, hc, hs⟩
      · cases p <;> cases hi
    | access a =>
      have hn : nextTurn s = .access a := by simp only [nextTurn, hp]
      simp only [step, hn] at h
      exact .inr (.inr (.inr ⟨a, hn, h⟩))

end Sys2Proof.Machine
end

