-- ==== Sys2Proof/Laws/Run.lean ====
section
/-! SUPPORT. Runs: what `performed` lists, and the step that presents a START. -/

namespace Sys2Proof.Machine

/-- A step that is an operation stands first in the list of those performed. -/
theorem performed_succ (n : Nat) {s t : State} {i : Instr} (hs : step s = .next t)
    (hn : nextTurn s = .operation i) : performed (n + 1) s = i :: performed n t := by
  simp only [performed, hs, hn]

/-- The operations of a run cut in two. -/
theorem performed_add (m n : Nat) {s t : State} (h : steps m s = .next t) :
    performed (m + n) s = performed m s ++ performed n t := by
  induction m generalizing s with
  | zero =>
    simp only [steps] at h
    rw [Host.Outcome.next.inj h, Nat.zero_add]
    rfl
  | succ m ih =>
    rw [Nat.add_right_comm]
    simp only [steps] at h
    simp only [performed]
    split at h
    · simp only [ih h]
      split <;> simp
    · cases h
    · cases h

/-- With nothing pending the next operation is the micro-operation at P. -/
theorem nextTurn_of_nil {s : State} (h : s.pending = []) : nextTurn s = .operation (dec s.p) := by
  simp only [nextTurn, h]

theorem nextTurn_of_start {s : State} {w : Nat} {ms : List HostMove}
    (h : s.pending = .start w :: ms) : nextTurn s = .operation (decodeCmd s.lenW w) := by
  simp only [nextTurn, h]

/-- An access of the HOST that comes next is one of its turns. -/
theorem mem_pending_of_access {s : State} {a : HostAccess} (h : nextTurn s = .access a) :
    .access a ∈ s.pending := by
  unfold nextTurn at h
  split at h
  · cases h
  · cases h
  · cases h
  · cases h
  · next hp =>
    cases h
    rw [hp]
    exact List.mem_cons_self

/-- A reset that comes next is one of the HOST's turns. -/
theorem mem_pending_of_rst {s : State} (h : nextTurn s = .operation .rst) : .rst ∈ s.pending := by
  unfold nextTurn at h
  split at h
  · cases hp : s.p <;> rw [hp] at h <;> cases h
  · cases hp : s.p <;> rw [hp] at h <;> cases h
  · simp_all
  · cases h
  · cases h

/-- A step takes one turn from those to come. -/
theorem pending_of_step {s t : State} (h : step s = .next t) : t.pending = s.pending.tail := by
  rcases step_next h with ⟨-, rfl⟩ | ⟨l, c, -, -, -, ⟨-, rfl⟩ | ⟨-, rfl⟩⟩ | ⟨-, ⟨-, rfl⟩ | ⟨-, rfl⟩⟩ |
    ⟨a, -, ha⟩
  · rfl
  · rfl
  · rw [startCall_spec]
    rfl
  · cases s.p <;> rfl
  · rfl
  · rcases hostAccess_next ha with ⟨i, v, -, -, rfl⟩ | ⟨j, v, -, -, rfl⟩ | ⟨x, rfl⟩ <;> rfl

/-- No step changes LEN_W. -/
theorem lenW_of_step {s t : State} (h : step s = .next t) : t.lenW = s.lenW := by
  rcases step_next h with ⟨-, rfl⟩ | ⟨l, c, -, -, -, ⟨-, rfl⟩ | ⟨-, rfl⟩⟩ | ⟨-, ⟨-, rfl⟩ | ⟨-, rfl⟩⟩ |
    ⟨a, -, ha⟩
  · rfl
  · rfl
  · rw [startCall_spec]
    rfl
  · cases s.p <;> rfl
  · rfl
  · rcases hostAccess_next ha with ⟨i, v, -, -, rfl⟩ | ⟨j, v, -, -, rfl⟩ | ⟨x, rfl⟩ <;> rfl

/-- The turns to come in a call are among those that followed its START. -/
theorem DuringCall.pending_suffix {s u : State} {n : Nat} (h : DuringCall s n u) :
    u.pending <:+ s.pending.tail := by
  induction h with
  | start h _ => rw [pending_of_step h]
  | next _ h _ ih => rw [pending_of_step h]; exact (List.tail_suffix _).trans ih

theorem DuringCall.lenW_eq {s u : State} {n : Nat} (h : DuringCall s n u) : u.lenW = s.lenW := by
  induction h with
  | start h _ => exact lenW_of_step h
  | next _ h _ ih => rw [lenW_of_step h, ih]

/-- The block is BUSY in every state of a running call. -/
theorem DuringCall.busy {s u : State} {n : Nat} (h : DuringCall s n u) : u.status.st = .busy := by
  cases h <;> assumption

/-- A call from a reachable state stays in reachable states. -/
theorem DuringCall.reachable {s u : State} {n : Nat} (hs : Reachable s) (h : DuringCall s n u) :
    Reachable u := by
  induction h with
  | start h _ => exact .step hs h
  | next _ h _ ih => exact .step ih h

/-- The ENGINE has the turn exactly when the next step is the micro-operation at P. -/
theorem engineTurn_iff (s : State) : engineTurn s = true ↔ nextTurn s = .operation (dec s.p) := by
  have hstart : ∀ c, decodeCmd s.lenW c ≠ dec s.p := fun c => by
    cases s.p <;> simp [dec, decodeCmd]
  have hrst : Instr.rst ≠ dec s.p := by cases s.p <;> simp [dec]
  cases hp : s.pending with
  | nil => simp [engineTurn, nextTurn, hp]
  | cons m ms => cases m <;> simp [engineTurn, nextTurn, hp, hstart, hrst]

/-- What a call's first step is. -/
theorem nextTurn_presentStart {s : State} {l c : Nat} (h : CallPremises s l c) :
    nextTurn (presentStart s l c) = .operation (.start l c) := by
  have hp : (presentStart s l c).pending = [.start (cmdWord s.lenW l c)] := rfl
  have hw : (presentStart s l c).lenW = s.lenW := rfl
  rw [nextTurn_of_start hp, hw, decodeCmd_cmdWord c h.lenFits]

/-- The first step of a call. -/
theorem step_presentStart {s : State} {l c : Nat} (h : CallPremises s l c) :
    step (presentStart s l c) = .next (startCall l c { s with pending := [] }) := by
  have hp : (presentStart s l c).pending = [.start (cmdWord s.lenW l c)] := rfl
  have hw : (presentStart s l c).lenW = s.lenW := rfl
  rw [step_of_start hp, hw, decodeCmd_cmdWord c h.lenFits]
  exact exec_start_of_not_busy (s := { s with pending := [] }) h.lenFits h.capFits h.idle

end Sys2Proof.Machine
end

