-- ==== Sys2Proof/Tests/Slice0.lean ====
section
/-! SUPPORT. Tests.  Expected values are the spec's own: the encodings of R75 to R77, and the tables
T-LANE, T-BLK, T-LEN, T-START, T-STATUS, T-TST, T-LDB, T-EXT, T-FIN and T-RST of 95_test_vectors.md.
After them, for every obligation with hypotheses, a state and operands that meet them. -/

namespace Sys2Proof.Tests

open Sys2Proof Sys2Proof.Machine

/-! ### States used below -/

/-- The input of PRG2, with the twelve bytes in place. -/
def prg2Input : Memory 8 :=
  [(0, 0xA5), (1, 0x5A), (2, 0xC3), (3, 0x3C), (4, 0x0F), (5, 0xF0)] ++
    [(6, 0x69), (7, 0x96), (8, 0x81), (9, 0x7E), (10, 0xFF), (11, 0x00)]

/-- Block 1 of PRG2: the first block's words are written, the staged bytes are those of T-EXT. -/
def midCall (p : SeqPos) : State :=
  { State.reset with
    stg := { s0 := 0xF0, s1 := 0x69, s2 := 0x96, s3 := 0x81, s4 := 0x7E }
    k := 1, p := p, len := 12, cap := 8, count := 4
    status := { st := .busy, notice := true, disc := 2, cause := .noCause }
    inMem := prg2Input
    outMem := [(0, 661), (1, 428), (2, 207), (3, 15)]
    diag := [{ code := .truncation, disc := 2 }] }

/-- A BUSY block at TST. -/
def testing (k len : Nat) : State :=
  { State.reset with k := k, len := len, status := { Status.idle with st := .busy } }

/-- A call of PRG2 that has ended DONE. -/
def ended : State :=
  { midCall .fin with
    k := 2, count := 8, status := { st := .done, notice := true, disc := 2, cause := .noCause } }

/-- PRG2 just before FIN (T-FIN), with all eight words written. -/
def atFin : State :=
  { midCall .fin with
    k := 2, count := 8
    outMem := [(0, 661), (1, 428), (2, 207), (3, 15), (4, 961), (5, 665), (6, 416), (7, 382)] }

/-- A failed call: `START L=7 CAP=3` of T-START. -/
def failed : State :=
  { State.reset with
    len := 7, cap := 3
    status := { st := .fail, notice := true, disc := 2, cause := .resourceExhausted } }

/-- PRG2 DONE, its result in place. -/
def prg2Done : State := { ended with outMem := atFin.outMem }

/-- For LEN_W = 3, with one byte placed: the HOST presents `START L=l CAP=c`, and once the ENGINE has had
a turn it reads COUNT, while a call may be running. -/
def placed (l c : Nat) : State :=
  { State.resetOf 3 with
    inMem := [(0, 0xA5)]
    pending := [.start (cmdWord 3 l c), .engine, .access (.readReg .count)] }

/-- The turns that lead there from the state after reset. -/
def placing (l c : Nat) : List HostMove := .access (.writeIn 0 0xA5) :: (placed l c).pending

/-- Whether an outcome is a next state with a property. -/
def nextHas (o : Host.Outcome State Fault Refusal) (f : State → Bool) : Bool :=
  match o with
  | .next t => f t
  | .fault _ => false
  | .refused _ => false

/-- Whether an outcome is a next state. -/
def answers (o : Host.Outcome State Fault Refusal) : Bool := nextHas o fun _ => true

/-! ### Well-formedness (R84) -/

theorem test_start_len_too_wide : (Instr.start (2 ^ 32) 0).wellFormed 32 = false := by decide
theorem test_start_cap_too_wide : (Instr.start 0 (2 ^ 32)).wellFormed 32 = false := by decide
theorem test_start_other_lenW : (Instr.start 7 7).wellFormed 3 = true ∧
    (Instr.start 8 0).wellFormed 3 = false ∧ (Instr.start 0 8).wellFormed 3 = false := by decide
theorem test_start_widest : (Instr.start (2 ^ 32 - 1) (2 ^ 32 - 1)).wellFormed 32 = true := by decide

/-! ### Decoding, from words written out (R75, R76, R77; T-START) -/

theorem test_decode_rst : decodeTableWord 1 0b1 = some .rst := by decide
theorem test_decode_pin_low : decodeTableWord 1 0b0 = none := by decide
theorem test_decode_start : decodeTableWord 64 0x0000000800000009 = some (.start 9 8) := by decide
theorem test_decode_start_top :
    decodeTableWord 64 0xCCCCCCCBFFFFFFFF = some (.start 4294967295 3435973835) := by decide
/-- The same `START L=7 CAP=4` for LEN_W = 3, and a word that is one bit too wide. -/
theorem test_decode_start_other_lenW :
    decodePortWord 3 6 0b100111 = some (.start 7 4) ∧ decodePortWord 3 6 0b1000000 = none := by decide
theorem test_decode_tst : decodeTableWord 4 0b0000 = some .tst := by decide
theorem test_decode_ldb0 : decodeTableWord 4 0b0001 = some .ldb0 := by decide
theorem test_decode_ldb1 : decodeTableWord 4 0b0010 = some .ldb1 := by decide
theorem test_decode_ldb2 : decodeTableWord 4 0b0011 = some .ldb2 := by decide
theorem test_decode_ldb3 : decodeTableWord 4 0b0100 = some .ldb3 := by decide
theorem test_decode_ldb4 : decodeTableWord 4 0b0101 = some .ldb4 := by decide
theorem test_decode_ext0 : decodeTableWord 4 0b0110 = some .ext0 := by decide
theorem test_decode_ext1 : decodeTableWord 4 0b0111 = some .ext1 := by decide
theorem test_decode_ext2 : decodeTableWord 4 0b1000 = some .ext2 := by decide
theorem test_decode_ext3 : decodeTableWord 4 0b1001 = some .ext3 := by decide
theorem test_decode_fin : decodeTableWord 4 0b1010 = some .fin := by decide
theorem test_decode_reserved_first : decode (w := 32) (.seq 0b1011#4) = .error (.reservedCode 0b1011#4) := by
  decide
theorem test_decode_reserved_last : decode (w := 32) (.seq 0b1111#4) = .error (.reservedCode 0b1111#4) := by
  decide

/-! ### RST and START (T-RST, T-START) -/

theorem test_rst_in_a_call :
    nextHas (exec .rst (midCall .ext2)) (fun t =>
      t.status.byte == 0x00 && t.len == 0 && t.count == 0 && t.k == 0 && t.p == .tst &&
      t.outMem == (midCall .ext2).outMem && t.events == EventLines.low) = true := by decide

/-- `START L=7 CAP=3`: notice and failure together (R178). -/
theorem test_start_notice_and_failure :
    nextHas (exec (.start 7 3) State.reset) (fun t =>
      t.status.byte == 0x57 && t.len == 7 && t.cap == 3 && t.count == 0 &&
      t.diag.map DiagRecord.bits == [0b01010] &&
      t.events == { done := false, fail := true, notice := true }) = true := by decide

/-- The capacity check at the top of the range, one word short of room for all. -/
theorem test_start_top_of_range :
    nextHas (exec (.start 4294967295 3435973835) State.reset) (fun t => t.status.byte == 0x43) &&
    nextHas (exec (.start 4294967295 3435973836) State.reset) (fun t => t.status.byte == 0x01)
      = true := by decide

/-! ### TST and FIN (T-TST, T-FIN) -/

/-- The sum 4294967300 must not wrap. -/
theorem test_tst_does_not_wrap :
    nextHas (exec .tst (testing 858993459 4294967295)) (fun t => t.p == .fin) &&
    nextHas (exec .tst (testing 858993458 4294967295)) (fun t => t.p == .ldb0) = true := by decide

theorem test_tst_leaves_the_tail :
    nextHas (exec .tst (testing 1 9)) (fun t => t.p == .fin) &&
    nextHas (exec .tst (testing 1 10)) (fun t => t.p == .ldb0) = true := by decide

theorem test_fin :
    nextHas (exec .fin atFin) (fun t =>
      t.status.byte == 0x16 && t.events.done && t.k == 2 && t.p == .fin && t.count == 8) = true := by
  decide

/-! ### Loads and extracts (T-LDB, T-EXT) -/

theorem test_ldb0 :
    nextHas (exec .ldb0 { midCall .ldb0 with stg := ended.stg }) (fun t =>
      t.stg.s0 == 0xF0 && t.p == .ldb1 && t.hist == [.read 5 0xF0]) = true := by decide
theorem test_ldb1 :
    nextHas (exec .ldb1 (midCall .ldb1)) (fun t =>
      t.stg.s1 == 0x69 && t.p == .ldb2 && t.hist == [.read 6 0x69]) = true := by decide
theorem test_ldb2 :
    nextHas (exec .ldb2 (midCall .ldb2)) (fun t =>
      t.stg.s2 == 0x96 && t.p == .ldb3 && t.hist == [.read 7 0x96]) = true := by decide
theorem test_ldb3 :
    nextHas (exec .ldb3 (midCall .ldb3)) (fun t =>
      t.stg.s3 == 0x81 && t.p == .ldb4 && t.hist == [.read 8 0x81]) = true := by decide
theorem test_ldb4 :
    nextHas (exec .ldb4 (midCall .ldb4)) (fun t =>
      t.stg.s4 == 0x7E && t.p == .ext0 && t.hist == [.read 9 0x7E]) = true := by decide
theorem test_ext0 :
    nextHas (exec .ext0 (midCall .ext0)) (fun t =>
      outAt t 4 == 0x03C1 && t.count == 5 && t.k == 1 && t.p == .ext1) = true := by decide
theorem test_ext1 :
    nextHas (exec .ext1 (midCall .ext1)) (fun t =>
      outAt t 5 == 0x0299 && outAt t 3 == 15 && t.k == 1 && t.p == .ext2) = true := by decide
theorem test_ext2 :
    nextHas (exec .ext2 (midCall .ext2)) (fun t =>
      outAt t 6 == 0x01A0 && t.k == 1 && t.p == .ext3) = true := by decide
theorem test_ext3 :
    nextHas (exec .ext3 (midCall .ext3)) (fun t =>
      outAt t 7 == 0x017E && t.k == 2 && t.p == .tst) = true := by decide

/-! ### The datapath (T-LANE, T-BLK, T-LEN) -/

theorem test_lanes : [lane 0 0xAA 0x55, lane 1 0xAA 0x55, lane 2 0xAA 0x55, lane 3 0xAA 0x55] =
    [681, 677, 661, 597] := by decide
theorem test_shifter : bsh 1 0xAA 0x55 = 0x2A5 := by decide
theorem test_block : [0, 1, 2, 3].map (unpack40 0xDE 0xAD 0xBE 0xEF 0x01) =
    [890, 731, 955, 769] := by decide
theorem test_unpack : unpack [0xA5, 0x5A, 0xC3, 0x3C, 0x0F, 0xF0, 0x69] =
    { words := [661, 428, 207, 15], count := 4, notice := some 2 } := by decide

/-! ### The invariants hold of the states used -/

theorem midCall_ext0_control : ControlInv (midCall .ext0) := by constructor <;> decide
theorem midCall_ext0_data : DataInv (midCall .ext0) := by constructor <;> decide
theorem atFin_control : ControlInv atFin := by constructor <;> decide
theorem atFin_data : DataInv atFin := by constructor <;> decide
theorem midCall_ext0_memory : MemoryInv (midCall .ext0) := by constructor <;> decide

/-! ### Witnesses: hypotheses met, obligation by obligation -/

theorem witness_DecodeOfEncodeIsTheOperation :
    (Instr.start 4294967295 4294967295).wellFormed 32 = true ∧ (Instr.start 0 0).wellFormed 32 = true ∧
    Instr.rst.wellFormed 32 = true ∧ Instr.fin.wellFormed 32 = true ∧
    (Instr.start 7 7).wellFormed 3 = true := by decide

theorem witness_EncodeOfDecodeIsTheWord :
    decode (w := 32) (.pin 1#1) = .ok .rst ∧ decode (w := 32) (.cmd 0#64) = .ok (.start 0 0) ∧
    decode (w := 32) (.seq 10#4) = .ok .fin := by decide

/-- The last code that names a position, the first that does not, and the last of all. -/
theorem witness_ReservedCodesSelectNothing :
    decode (w := 32) (.seq 10#4) = .ok .fin ∧ SeqPos.ofCode 11#4 = none ∧ 11 ≤ (11#4).toNat ∧
    11 ≤ (15#4).toNat := by decide

theorem witness_StepRunsTheSelectedOperation :
    selectedWord (midCall .ext0) = some (.seq 6#4) ∧ decode (w := 32) (.seq 6#4) = .ok .ext0 ∧
    (midCall .ext0).pending = [] ∧
    (({ ended with pending := [.engine] } : State).pending.head? = some .engine) ∧
    (({ ended with pending := [.rst] } : State).pending.head? = some .rst) ∧
    (({ ended with pending := [.start 7] } : State).pending.head? = some (.start (7#64).toNat)) ∧
    2 ^ (2 * ended.lenW) - 1 < 2 ^ (2 * ended.lenW) ∧
    step { ended with pending := [.start (2 ^ 64)] } = .refused .startOperandTooWide ∧
    answers (step { ended with pending := [.start (2 ^ 64 - 1)] }) = true ∧
    (({ ended with pending := [.access (.readOut 0)] } : State).pending.head? =
      some (.access (.readOut 0))) :=
  ⟨rfl, rfl, rfl, rfl, rfl, rfl, by decide, rfl, rfl, rfl⟩

theorem witness_PlacedWordRunsInTheNextStep :
    decodeTableWord 64 0x0000000400000007 = some (.start 7 4) ∧ (Instr.start 7 4).agent = .host ∧
    decodeTableWord 8 10 = some .fin ∧ Instr.fin.agent = .engine ∧
    answers (step (State.reset.withFetchWord 64 0x0000000400000007)) = true ∧
    answers (step (State.reset.withFetchWord 8 10)) = true := by decide

theorem witness_EngineIdlesUnlessBusy :
    Instr.ldb0.agent = .engine ∧ State.reset.status.st ≠ .busy ∧ ended.status.st ≠ .busy ∧
    failed.status.st ≠ .busy := by decide

/-- `L = 12`, `CAP = 8`: the last element of each buffer is the call's, the next one is not. -/
theorem witness_StepsAlwaysComplete :
    (midCall .tst).pending = [] ∧
    step { midCall .tst with pending := [.access (.writeIn 11 0)] } =
      .refused .hostWritesInputDuringCall ∧
    answers (step { midCall .tst with pending := [.access (.writeIn 12 0)] }) = true ∧
    step { midCall .tst with pending := [.access (.writeOut 7 0)] } =
      .refused .hostWritesOutputDuringCall ∧
    answers (step { midCall .tst with pending := [.access (.writeOut 8 0)] }) = true ∧
    step { midCall .tst with pending := [.access (.readOut 7)] } =
      .refused .hostReadsOutputDuringCall ∧
    answers (step { midCall .tst with pending := [.access (.readOut 8)] }) = true ∧
    (({ midCall .tst with pending := [.engine] } : State).pending.head? = some .engine) ∧
    step { midCall .tst with pending := [.start (2 ^ 64)] } = .refused .startOperandTooWide :=
  ⟨rfl, rfl, rfl, rfl, rfl, rfl, rfl, rfl, rfl⟩

/-- Room for exactly the words of the call and one word short, from IDLE, DONE and FAIL. -/
theorem witness_AcceptedStartDoesItsStep :
    State.reset.status.st ≠ .busy ∧ ended.status.st ≠ .busy ∧ failed.status.st ≠ .busy ∧
    5 < 2 ^ State.reset.lenW ∧ 4 * (5 / 5) ≤ 4 ∧
    4294967295 < 2 ^ State.reset.lenW ∧ 4 * (4294967295 / 5) ≤ 3435973836 ∧
    4 * (4294967295 / 5) > 3435973835 ∧ 5 % 5 = 0 ∧ 4294967294 % 5 ≠ 0 := by decide

/-- One word short. -/
theorem witness_StartFailsWithoutRoom :
    State.reset.status.st ≠ .busy ∧ 4 * (5 / 5) > 3 ∧ 3435973835 < 2 ^ State.reset.lenW ∧
    4 * (4294967295 / 5) > 3435973835 := by decide

theorem witness_StartEmitsTheNoticeOfItsTail :
    State.reset.status.st ≠ .busy ∧ 4 < 2 ^ State.reset.lenW ∧ 4 % 5 ≠ 0 ∧ 6 % 5 ≠ 0 ∧ 5 % 5 = 0 ∧
    0 % 5 = 0 := by decide

theorem witness_StartWhileBusyIsIgnored :
    (midCall .ext2).status.st = .busy ∧ 5 < 2 ^ State.reset.lenW ∧ 4 < 2 ^ State.reset.lenW := by decide

theorem witness_StartRefusesOperandsThatDoNotFit :
    exec (.start 4294967296 0) State.reset = .refused .startOperandTooWide ∧
    exec (.start 0 4294967296) State.reset = .refused .startOperandTooWide := ⟨rfl, rfl⟩

theorem witness_EmptyOutputNeverFails :
    State.reset.status.st ≠ .busy ∧ (4 : Nat) ≤ 4 ∧ 4 < 2 ^ State.reset.lenW ∧
    0 < 2 ^ State.reset.lenW := by decide

/-- Both sides of the boundary (T-TST): 5 bytes and 4 bytes at block 0. -/
theorem witness_TstBranchesOnACompleteBlock :
    (testing 0 5).status.st = .busy ∧ 5 * (testing 0 5).k + 5 ≤ (testing 0 5).len ∧
    (testing 0 4).status.st = .busy ∧ (testing 0 4).len < 5 * (testing 0 4).k + 5 := by
  decide

theorem witness_LoadsStageOneByte : (midCall .ldb0).status.st = .busy := by decide
theorem witness_ExtractsWriteTheirWord : (midCall .ext0).status.st = .busy := by decide
theorem witness_LastExtractGoesToTheNextBlock : (midCall .ext3).status.st = .busy := by decide
theorem witness_FinEndsTheCall : atFin.status.st = .busy := by decide

/-- Outside a call any element is the HOST's; in a call those from LEN and from CAP on. -/
theorem witness_HostOwnsTheSpacesOutsideACall :
    ¬(ended.status.st = .busy ∧ 0 < ended.len) ∧
    ¬((midCall .tst).status.st = .busy ∧ 12 < (midCall .tst).len) ∧
    ¬((midCall .tst).status.st = .busy ∧ 8 < (midCall .tst).cap) ∧
    ((midCall .tst).status.st = .busy ∧ 11 < (midCall .tst).len) ∧
    ((midCall .tst).status.st = .busy ∧ 7 < (midCall .tst).cap) := by decide

/-- Each of the three kinds of transition. -/
theorem witness_StatusChangesOnlyAsListed :
    nextHas (step { ended with pending := [.rst] }) (fun t => t.status.st == .idle) &&
    nextHas (step { ended with pending := [.start 0x0000000400000005] })
      (fun t => t.status.st == .busy) &&
    nextHas (step { ended with pending := [.start 0x0000000300000005] })
      (fun t => t.status.st == .fail) &&
    nextHas (step atFin) (fun t => t.status.st == .done) = true := by decide

/-- Each register is changed by some operation. -/
theorem witness_RegistersAreWrittenOnlyAsListed :
    nextHas (exec .ldb0 { midCall .ldb0 with k := 0 }) (fun t => t.stg.get 0 != 0xF0) &&
    nextHas (exec .ext3 (midCall .ext3)) (fun t => t.k != 1 && t.p != .ext3 && t.count != 4) &&
    nextHas (exec (.start 5 3) ended) (fun t => t.len != 12 && t.cap != 8 && t.status.st != .done &&
      !t.status.notice && t.status.disc != 2 && t.status.cause != .noCause) = true := by decide

theorem witness_SpacesAreReachedOnlyAsListed :
    nextHas (exec .ext0 { midCall .ext0 with outMem := [(4, 0)] }) (fun t => outAt t 4 != 0) &&
    nextHas (exec .ext1 { midCall .ext1 with outMem := [(5, 0)] }) (fun t => outAt t 5 != 0) &&
    nextHas (exec .ext2 { midCall .ext2 with outMem := [(6, 0)] }) (fun t => outAt t 6 != 0) &&
    nextHas (exec .ext3 { midCall .ext3 with outMem := [(7, 0)] }) (fun t => outAt t 7 != 0) &&
    nextHas (exec (.start 7 4) ended) (fun t => t.diag.length == 2) = true := by decide

/-- The largest word, from a block of all ones (X1), over an element that held 65535. -/
theorem witness_WordsWrittenHaveTenBits :
    let s : State := { midCall .ext0 with
      stg := { s0 := 255, s1 := 255, s2 := 255, s3 := 255, s4 := 255 }, outMem := [(4, 0xFFFF)] }
    outAt s 4 = 0xFFFF ∧ nextHas (exec .ext0 s) (fun t => outAt t 4 == 1023) = true := by decide

theorem witness_EventLinesAreHighForOneStep :
    nextHas (step atFin) (fun t => t.events == { done := true, fail := false, notice := false }) &&
    nextHas (step { ended with pending := [.start 0x0000000300000005] })
      (fun t => t.events == { done := false, fail := true, notice := false }) &&
    nextHas (step { ended with pending := [.start 0x0000000400000007] })
      (fun t => t.events == { done := false, fail := false, notice := true }) = true := by decide

theorem witness_StepKeepsTheMemoryForm :
    MemoryInv (midCall .ext0) ∧ answers (step (midCall .ext0)) = true :=
  ⟨midCall_ext0_memory, rfl⟩

theorem witness_StepKeepsTheControlInvariant :
    ControlInv (midCall .ext0) ∧ answers (step (midCall .ext0)) = true :=
  ⟨midCall_ext0_control, rfl⟩

theorem witness_StepKeepsTheDataInvariant :
    ControlInv (midCall .ext0) ∧ DataInv (midCall .ext0) ∧
      answers (step (midCall .ext0)) = true :=
  ⟨midCall_ext0_control, midCall_ext0_data, rfl⟩

/-- An ended call, at the edges of its input and its result: the next byte and the next element are free,
the last ones are not. -/
theorem witness_StepKeepsTheDataInvariant_ended :
    ControlInv prg2Done ∧ DataInv prg2Done ∧ ResultInv prg2Done ∧
    ¬OverwritesResult { prg2Done with pending := [.access (.writeIn 12 0)] } ∧
    ¬OverwritesResult { prg2Done with pending := [.access (.writeOut 8 0)] } ∧
    OverwritesResult { prg2Done with pending := [.access (.writeIn 11 0)] } ∧
    OverwritesResult { prg2Done with pending := [.access (.writeOut 7 0)] } ∧
    answers (step { prg2Done with pending := [.access (.writeIn 12 0)] }) = true := by
  refine ⟨?_, ?_, ?_, ?_, ?_, ⟨rfl, .inl ⟨11, 0, rfl, by decide⟩⟩, ⟨rfl, .inr ⟨7, 0, rfl, by decide⟩⟩, rfl⟩
  · constructor <;> decide
  · constructor <;> decide
  · unfold ResultInv; decide
  · rintro ⟨-, ⟨i, v, h, hi⟩ | ⟨j, v, h, -⟩⟩
    · cases h; exact absurd hi (by decide)
    · cases h
  · rintro ⟨-, ⟨i, v, h, -⟩ | ⟨j, v, h, hj⟩⟩
    · cases h
    · cases h; exact absurd hj (by decide)

theorem witness_StepKeepsNoticesLegal :
    NoticesLegal ended ∧
      nextHas (step { ended with pending := [.start 0x0000000400000009] })
        (fun t => t.diag.length == 2) = true := by
  constructor
  · unfold NoticesLegal; decide
  · decide

/-- A run of one step, for LEN_W = 3. -/
theorem witness_ReachableStatesMeetTheInvariants :
    Reachable (placed 5 4) ∧ ReachableInPlace (placed 5 4) := by
  exact ⟨.step (.reset (w := 3) (by decide) (placing 5 4)) rfl,
    .step (.reset (w := 3) (by decide) (placing 5 4)) (fun h => nomatch h.1) rfl⟩

theorem witness_StatusByteHasItsFields : ControlInv (midCall .ext0) := midCall_ext0_control

/-- The last block of the longest call. -/
theorem witness_AddressesAreInBounds :
    let s : State := { State.reset with
      k := 858993458, p := .ldb4, len := 4294967295, cap := 3435973836, count := 3435973832
      status := { st := .busy, notice := false, disc := 0, cause := .noCause } }
    ControlInv s ∧ s.status.st = .busy ∧ s.p ≠ .tst ∧ s.p ≠ .fin := by
  refine ⟨?_, by decide, by decide, by decide⟩
  constructor <;> decide

/-- The first and the last word of a block. -/
theorem witness_WordsAreTheBitsAtTheirOffset :
    0 < 4 * (([1, 0, 0, 0, 0, 7] : List Byte).length / 5) ∧
    3 < 4 * (([1, 0, 0, 0, 0, 7] : List Byte).length / 5) := by decide

theorem witness_UnpackCountsAndReportsTheTail :
    ([] : List Byte).length % 5 = 0 ∧ ([1, 0, 0, 0] : List Byte).length % 5 ≠ 0 ∧
    4 ∈ (unpack [1, 0, 0, 0, 0]).words := by decide

theorem witness_UnpackOfAConcatenation :
    ([1, 0, 0, 0, 0] : List Byte).length % 5 = 0 ∧ ([] : List Byte).length % 5 = 0 := by decide

theorem witness_BlocksAreIndependent :
    let a : List Byte := [9, 9, 9, 9, 9, 1, 2, 3, 4, 5]
    let b : List Byte := [0, 0, 0, 0, 0, 1, 2, 3, 4, 5, 6]
    1 < a.length / 5 ∧ 1 < b.length / 5 ∧ (∀ i, i < 5 → a[5 * 1 + i]? = b[5 * 1 + i]?) ∧
    3 < 4 := by decide

/-- With room, without, and for the longest call; for the obligations about a call. -/
theorem witness_CallMeetsTheReferenceFunction :
    CallPremises State.reset 5 4 ∧ CallPremises ended 7 3 ∧
    CallPremises failed 4294967295 4294967295 := by
  refine ⟨?_, ?_, ?_⟩ <;> constructor <;> decide

theorem witness_CallTakesTenStepsABlockAndTwo :
    CallPremises ended 5 4 ∧ 4 * (5 / 5) ≤ 4 ∧ 11 < 10 * (5 / 5) + 2 ∧
    CallPremises ended 5 3 ∧ 4 * (5 / 5) > 3 := by
  refine ⟨?_, by decide, by decide, ?_, by decide⟩ <;> constructor <;> decide

theorem witness_CallPerformsItsSequence :
    CallPremises ended 12 8 ∧
    pseudoCall 5 4 = [.start 5 4, .tst, .ldb0, .ldb1, .ldb2, .ldb3, .ldb4, .ext0, .ext1, .ext2, .ext3,
      .tst, .fin] := by
  refine ⟨?_, by decide⟩
  constructor <;> decide

/-- The turns of `placed` while its call runs: neither a reset nor a command, and no access but the read of
COUNT. -/
theorem placed_turns {l c n : Nat} {u : State} {m : HostMove} (h : DuringCall (placed l c) n u)
    (hm : m ∈ u.pending) : m = .engine ∨ m = .access (.readReg .count) := by
  have := h.pending_suffix.subset hm
  simpa [placed] using this

/-- The premises of R217, with room and without, with a tail and without. -/
theorem placed_claim {l c : Nat} (hl : l < 2 ^ 3) (hc : c < 2 ^ 3) :
    CallClaim (placed l c) (inputBytes (placed l c) l) c := by
  have hlen : (inputBytes (placed l c) l).length = l := by simp [inputBytes]
  refine ⟨.step (.reset (w := 3) (by decide) (placing l c)) rfl, by rw [hlen]; rfl,
    by rw [hlen]; exact hl, hc, nofun, ?_, ?_, ?_, ?_, ?_⟩
  · intro i hi
    rw [hlen] at hi
    simp [inputBytes, hi]
  · intro n u i v h hn
    rcases placed_turns h (mem_pending_of_access hn) with hm | hm <;> cases hm
  · intro n u j h
    constructor
    · intro v hn
      rcases placed_turns h (mem_pending_of_access hn) with hm | hm <;> cases hm
    · intro hn
      rcases placed_turns h (mem_pending_of_access hn) with hm | hm <;> cases hm
  · intro n u h hn
    rcases placed_turns h (mem_pending_of_rst hn) with hm | hm <;> cases hm
  · intro n u x h hp
    rcases placed_turns h (List.mem_of_head? hp) with hm | hm <;> cases hm

/-- Claims with room and one word short; and the two ends: in the START itself, and after TST, the HOST's
read of COUNT, and FIN. -/
theorem witness_CallsInAnyInterleavingMeetTheReference :
    CallClaim (placed 5 4) (inputBytes (placed 5 4) 5) 4 ∧
    CallClaim (placed 7 3) (inputBytes (placed 7 3) 7) 3 ∧
    (∃ t, CallEnd (placed 7 3) 0 t) ∧ (∃ t, CallEnd (placed 4 0) 2 t) := by
  have atTst : DuringCall (placed 4 0) 0 _ := .start rfl rfl
  have atRead := DuringCall.next atTst rfl rfl
  have atFin := DuringCall.next atRead rfl rfl
  exact ⟨placed_claim (by decide) (by decide), placed_claim (by decide) (by decide),
    ⟨_, .atOnce rfl (.inr rfl)⟩, ⟨_, .after atFin rfl (.inl rfl)⟩⟩

theorem witness_CallsInAnyInterleavingEnd :
    CallClaim (placed 0 0) (inputBytes (placed 0 0) 0) 0 ∧
    CallClaim (placed 7 7) (inputBytes (placed 7 7) 7) 7 :=
  ⟨placed_claim (by decide) (by decide), placed_claim (by decide) (by decide)⟩

theorem witness_CallAccessesEachElementOnceInOrder : CallPremises ended 12 8 := by
  constructor <;> decide

theorem witness_CallsDoNotDependOnThePast :
    CallPremises ended 7 4 ∧ CallPremises { failed with inMem := prg2Input } 7 4 ∧
    ∀ i, i < 7 → inAt ended i = inAt { failed with inMem := prg2Input } i := by
  refine ⟨?_, ?_, by decide⟩ <;> constructor <;> decide

theorem witness_ControlDoesNotDependOnData :
    let s := midCall .ext0
    let u := { midCall .ext0 with stg := failed.stg, inMem := [], cap := 0, count := 0 }
    s.status.st = .busy ∧ u.status.st = .busy ∧ s.pending = [] ∧ u.pending = [] ∧
    s.lenW = u.lenW ∧ s.len = u.len ∧ s.k = u.k ∧ s.p = u.p :=
  ⟨rfl, rfl, rfl, rfl, rfl, rfl, rfl, rfl⟩

theorem witness_TenStepsAreOneBlockStep :
    (midCall .tst).status.st = .busy ∧ (midCall .tst).pending = [] ∧ (midCall .tst).p = .tst ∧
    5 * (midCall .tst).k + 5 ≤ (midCall .tst).len := by decide

theorem witness_RstAbandonsACall :
    ControlInv (midCall .ext0) ∧ DataInv (midCall .ext0) ∧ (midCall .ext0).status.st = .busy :=
  ⟨midCall_ext0_control, midCall_ext0_data, rfl⟩

theorem witness_ResultsHoldUntilTheNextCommand :
    ended.status.st = .done ∧ ended.pending = [] ∧ failed.status.st = .fail ∧
    failed.pending = [] := by decide

/-- The last word of PRG2. -/
theorem witness_WordsAreReadableAtDone :
    let s : State := { atFin with pending := [.engine, .access (.readOut 7)] }
    ControlInv s ∧ DataInv s ∧ s.status.st = .busy ∧ s.p = .fin ∧ 7 < s.count := by
  refine ⟨?_, ?_, by decide, by decide, by decide⟩ <;> constructor <;> decide

theorem witness_EmptyInputEndsDoneUntouched :
    ended.status.st ≠ .busy ∧ 4294967295 < 2 ^ State.reset.lenW := by decide

theorem witness_StreamCutAtABlockBoundary :
    5 * 1 ≤ ([1, 0, 0, 0, 0, 7] : List Byte).length ∧ 5 * 0 ≤ ([] : List Byte).length := by decide

end Sys2Proof.Tests
end

section
/-! The reference word and the datapath: one word of a block, and what it depends on. -/

namespace Sys2Proof.Machine

/-- Word `n` of block `k` is word `n` of `UNPACK40` on the five bytes of that block (R104, R108). -/
theorem wordOf_block (f : Nat → Byte) (k : Nat) (n : Fin 4) :
    wordOf f (4 * k + n.val) =
      unpack40 (f (5 * k)) (f (5 * k + 1)) (f (5 * k + 2)) (f (5 * k + 3)) (f (5 * k + 4)) n := by
  have hn := n.isLt
  have hdiv : (4 * k + n.val) / 4 = k := by omega
  have hmod : (⟨(4 * k + n.val) % 4, Nat.mod_lt _ (by decide)⟩ : Fin 4) = n :=
    Fin.ext (by dsimp only; omega)
  rw [wordOf, hdiv, hmod]

/-- The words of the complete blocks depend on the bytes below `l` only. -/
theorem wordOf_congr {f g : Nat → Byte} {l j : Nat} (h : ∀ i, i < l → f i = g i)
    (hj : j < 4 * (l / 5)) : wordOf f j = wordOf g j := by
  have byte : ∀ i, i < 5 → f (5 * (j / 4) + i) = g (5 * (j / 4) + i) := fun i hi =>
    h _ (by omega)
  rw [wordOf, wordOf, byte 1 (by decide), byte 2 (by decide), byte 3 (by decide),
    byte 4 (by decide), ← Nat.add_zero (5 * (j / 4)), byte 0 (by decide)]

/-- A lane on bytes `n` and `n + 1` of a block is formula `n` of `UNPACK40` (R121 to R126). -/
theorem lane_get_eq_unpack40 (g : Staging) (n : Fin 4) :
    lane n (g.get n.castSucc) (g.get n.succ) =
      unpack40 (g.get 0) (g.get 1) (g.get 2) (g.get 3) (g.get 4) n := by
  have h0 := (g.get 0).isLt
  fin_cases n
  · simp [lane, unpack40]; omega
  · simp [lane, unpack40]
  · simp [lane, unpack40]
  · simp [lane, unpack40]

/-- A lane result has ten bits (R128). -/
theorem lane_lt (n : Fin 4) (hi lo : Byte) : lane n hi lo < 1024 := by
  have hh := hi.isLt
  have hl := lo.isLt
  fin_cases n <;> simp [lane] <;> omega

/-- Widening to an output element keeps the value of a lane (R129). -/
theorem zext16_lane_toNat (n : Fin 4) (hi lo : Byte) :
    (zext16 (lane n hi lo)).toNat = lane n hi lo := by
  have := lane_lt n hi lo
  rw [zext16, BitVec.toNat_ofNat]
  exact Nat.mod_eq_of_lt (by omega)

end Sys2Proof.Machine
end

section
/-! The registers an accepted START leaves, one by one (R102). -/

namespace Sys2Proof.Machine

variable (l c : Nat) (s : State)

@[simp] theorem startCall_lenW : (startCall l c s).lenW = s.lenW := by rw [startCall_spec]
@[simp] theorem startCall_stg : (startCall l c s).stg = s.stg := by rw [startCall_spec]
@[simp] theorem startCall_k : (startCall l c s).k = 0 := by rw [startCall_spec]
@[simp] theorem startCall_p : (startCall l c s).p = .tst := by rw [startCall_spec]
@[simp] theorem startCall_len : (startCall l c s).len = l := by rw [startCall_spec]
@[simp] theorem startCall_cap : (startCall l c s).cap = c := by rw [startCall_spec]
@[simp] theorem startCall_count : (startCall l c s).count = 0 := by rw [startCall_spec]
@[simp] theorem startCall_status : (startCall l c s).status =
    { st := if 4 * (l / 5) ≤ c then .busy else .fail
      notice := noticeOf l
      disc := tailOf l
      cause := if 4 * (l / 5) ≤ c then .noCause else .resourceExhausted } := by
  rw [startCall_spec]
@[simp] theorem startCall_inMem : (startCall l c s).inMem = s.inMem := by rw [startCall_spec]
@[simp] theorem startCall_outMem : (startCall l c s).outMem = s.outMem := by rw [startCall_spec]
@[simp] theorem startCall_diag : (startCall l c s).diag =
    s.diag ++ if l % 5 = 0 then [] else [{ code := .truncation, disc := tailOf l }] := by
  rw [startCall_spec]
@[simp] theorem startCall_pending : (startCall l c s).pending = s.pending := by
  rw [startCall_spec]

end Sys2Proof.Machine
end

section
/-! The registers of a call (R33, V1 to V6, V9, V10).  While BUSY or DONE the invariant of the registers
is one predicate of the operands and the position, `CallInv`, that each micro-operation keeps. -/

namespace Sys2Proof.Machine

/-- The registers the invariant of the registers speaks of. -/
def controlRegs (s : State) : Nat × Nat × Nat × Nat × Nat × SeqPos × Status :=
  (s.lenW, s.len, s.cap, s.count, s.k, s.p, s.status)

/-- The invariant of the registers is a property of those registers alone. -/
theorem ControlInv.congr {s t : State} (h : ControlInv s) (e : controlRegs t = controlRegs s) :
    ControlInv t := by
  simp only [controlRegs, Prod.mk.injEq] at e
  obtain ⟨hw, hl, hc, hn, hk, hp, hs⟩ := e
  cases h
  constructor <;> simp only [hw, hl, hc, hn, hk, hp, hs] <;> assumption

/-- A block no call has been made on since reset meets the invariant (R30). -/
theorem controlInv_of_idle {s : State} (hs : s.status = Status.idle) (hl : s.len = 0)
    (hc : s.cap = 0) (hn : s.count = 0) (hk : s.k = 0) : ControlInv s := by
  have hst : s.status.st = .idle := by rw [hs]; rfl
  have hpos := Nat.two_pow_pos s.lenW
  constructor <;> simp_all [Status.idle, code_le]

/-- The registers of a call that is running or has ended well: V2 to V6 and V10 where ST is BUSY or
DONE, and the widths of the operands. -/
structure CallInv (s : State) : Prop where
  lenFits : s.len < 2 ^ s.lenW
  capFits : s.cap < 2 ^ s.lenW
  disc : s.status.disc = tailOf s.len
  notice : s.status.notice = noticeOf s.len
  cause : s.status.cause = .noCause
  room : 4 * (s.len / 5) ≤ s.cap
  blockBound : s.k ≤ s.len / 5
  blockOpen : s.p ≠ .tst → s.p ≠ .fin → s.k < s.len / 5
  countWords : s.count = 4 * s.k + wordsDone s.p
  finEnd : s.p = .fin → s.k = s.len / 5

theorem noticeOf_iff_tailOf (l : Nat) : noticeOf l = true ↔ tailOf l ≠ 0 := by
  rw [noticeOf_iff, ne_eq, ne_eq, Fin.ext_iff, tailOf_val]
  rfl

theorem wordsDone_le (p : SeqPos) : wordsDone p ≤ 3 := by cases p <;> decide

/-- Words inside a block are counted in an extract only. -/
theorem wordsDone_tst_fin {p : SeqPos} (h : p = .tst ∨ p = .fin) : wordsDone p = 0 := by
  rcases h with rfl | rfl <;> rfl

/-- COUNT is at most NEED (R161). -/
theorem CallInv.count_le {s : State} (h : CallInv s) : s.count ≤ 4 * (s.len / 5) := by
  have hc := h.countWords
  have hk := h.blockBound
  by_cases hp : s.p = .tst ∨ s.p = .fin
  · have := wordsDone_tst_fin hp
    omega
  · have := h.blockOpen (fun e => hp (.inl e)) (fun e => hp (.inr e))
    have := wordsDone_le s.p
    omega

/-- K and COUNT hold numbers of their width (R161). -/
theorem CallInv.k_count_fit {s : State} (h : CallInv s) :
    s.k < 2 ^ s.lenW ∧ s.count < 2 ^ s.lenW := by
  have hc := h.count_le
  have hk := h.blockBound
  have hr := h.room
  have hf := h.capFits
  omega

/-- The registers of a call that is running, or has ended well at FIN, meet the invariant. -/
theorem CallInv.control {s : State} (h : CallInv s)
    (hs : s.status.st = .busy ∨ s.status.st = .done ∧ s.p = .fin) : ControlInv s := by
  have hidle : s.status.st ≠ .idle := by rcases hs with hb | ⟨hd, -⟩ <;> simp [*]
  have hfail : s.status.st ≠ .fail := by rcases hs with hb | ⟨hd, -⟩ <;> simp [*]
  exact {
    widths := ⟨h.lenFits, h.capFits, h.k_count_fit.2, h.k_count_fit.1⟩
    posCode := code_le s.p
    tailFields := fun _ => by rw [h.disc, h.notice]; exact ⟨rfl, noticeOf_iff_tailOf s.len⟩
    idleClear := fun hi => absurd hi hidle
    causeFail := by simp [h.cause, hfail]
    failState := fun hf => absurd hf hfail
    capacity := fun _ => h.room
    blockBound := fun _ => h.blockBound
    blockOpen := fun _ => h.blockOpen
    countWords := fun _ => h.countWords
    doneEnd := fun hd => by
      rcases hs with hb | ⟨-, hp⟩
      · rw [hb] at hd; cases hd
      · exact ⟨hp, h.finEnd hp⟩
    finEnd := fun _ => h.finEnd }

/-- In BUSY and in DONE the invariant says everything `CallInv` says. -/
theorem ControlInv.callInv {s : State} (h : ControlInv s)
    (hs : s.status.st = .busy ∨ s.status.st = .done) : CallInv s := by
  have hidle : s.status.st ≠ .idle := by rcases hs with hs | hs <;> simp [hs]
  have hfail : s.status.st ≠ .fail := by rcases hs with hs | hs <;> simp [hs]
  have hdisc : s.status.disc = tailOf s.len := Fin.ext (h.tailFields hidle).1
  refine ⟨h.widths.1, h.widths.2.1, hdisc, ?_, ?_, h.capacity hs, h.blockBound hs, h.blockOpen hs,
    h.countWords hs, fun hp => ?_⟩
  · rw [Bool.eq_iff_iff, (h.tailFields hidle).2, hdisc, noticeOf_iff_tailOf]
  · cases hc : s.status.cause with
    | noCause => rfl
    | resourceExhausted => exact absurd (h.causeFail.mp hc) hfail
  · rcases hs with hs | hs
    · exact h.finEnd hs hp
    · exact (h.doneEnd hs).2

/-! ### Each micro-operation keeps the registers of its call -/

/-- TST goes into a block that is complete, and to FIN where none is left (R141). -/
theorem CallInv.after_tst {s : State} (h : CallInv s) (hp : s.p = .tst) :
    CallInv (microOp .tst s) := by
  have hk := h.blockBound
  have hc := h.countWords
  rw [hp] at hc
  by_cases hb : eaIn s.k 5 ≤ s.len
  · have hm : microOp .tst s = setPos .ldb0 s := by simp only [microOp, if_pos hb]
    rw [eaIn] at hb
    rw [hm]
    exact { h with
      blockOpen := fun _ _ => by dsimp only [setPos]; omega
      countWords := hc
      finEnd := nofun }
  · have hm : microOp .tst s = setPos .fin s := by simp only [microOp, if_neg hb]
    rw [eaIn] at hb
    rw [hm]
    exact { h with
      blockOpen := fun _ hf => absurd rfl hf
      countWords := hc
      finEnd := fun _ => by dsimp only [setPos]; omega }

/-- A load stays in its block, and no word has been written there (R142 to R146). -/
theorem CallInv.after_load {s : State} (h : CallInv s) (ht : s.p ≠ .tst) (hf : s.p ≠ .fin)
    (hw : wordsDone s.p = 0) (i : Fin 5) {q : SeqPos} (hq : q ≠ .fin) (hqw : wordsDone q = 0) :
    CallInv (loadByte i q s) :=
  { h with
    blockOpen := fun _ _ => h.blockOpen ht hf
    countWords := by rw [loadByte_eq]; exact hqw ▸ hw ▸ h.countWords
    finEnd := fun e => absurd e hq }

/-- Inside a block there is room to count one word more (R161). -/
theorem CallInv.succReg_count {s : State} (h : CallInv s) (ht : s.p ≠ .tst) (hf : s.p ≠ .fin) :
    succReg s.lenW s.count = s.count + 1 := by
  have hk := h.blockOpen ht hf
  have hc := h.countWords
  have hw := wordsDone_le s.p
  have hr := h.room
  have hcap := h.capFits
  exact succReg_of_fits (by omega)

/-- Inside a block there is room to count one block more (R161). -/
theorem CallInv.succReg_k {s : State} (h : CallInv s) (ht : s.p ≠ .tst) (hf : s.p ≠ .fin) :
    succReg s.lenW s.k = s.k + 1 := by
  have hk := h.blockOpen ht hf
  have hr := h.room
  have hcap := h.capFits
  exact succReg_of_fits (by omega)

/-- The first three extracts count one word of their block (R147 to R149). -/
theorem CallInv.after_extract {s : State} (h : CallInv s) (ht : s.p ≠ .tst) (hf : s.p ≠ .fin)
    (n : Fin 4) {q : SeqPos} (hq : q ≠ .fin) (hw : wordsDone q = wordsDone s.p + 1) :
    CallInv (setPos q (extractWord n s)) :=
  { h with
    blockOpen := fun _ _ => h.blockOpen ht hf
    countWords := by
      have hc := h.countWords
      have hn := h.succReg_count ht hf
      simp only [extractWord_eq, setPos]
      omega
    finEnd := fun e => absurd e hq }

/-- EXT3 counts the last word of its block and goes to the next block (R150). -/
theorem CallInv.after_lastExtract {s : State} (h : CallInv s) (hp : s.p = .ext3) :
    CallInv (microOp .ext3 s) := by
  have ht : s.p ≠ .tst := by rw [hp]; decide
  have hf : s.p ≠ .fin := by rw [hp]; decide
  have hk := h.blockOpen ht hf
  have hks : (microOp .ext3 s).k = s.k + 1 := h.succReg_k ht hf
  have hns : (microOp .ext3 s).count = s.count + 1 := h.succReg_count ht hf
  have hc := h.countWords
  rw [hp] at hc
  exact { h with
    blockBound := by rw [hks]; exact hk
    blockOpen := fun hn _ => absurd rfl hn
    countWords := by rw [hks, hns, hc]; simp only [microOp, setPos, wordsDone]; omega
    finEnd := nofun }

/-- Every micro-operation at the position of the block keeps the registers of the call. -/
theorem CallInv.after_microOp {s : State} (h : CallInv s) : CallInv (microOp s.p s) := by
  cases hp : s.p with
  | tst => exact h.after_tst hp
  | ldb0 | ldb1 | ldb2 | ldb3 | ldb4 =>
    exact h.after_load (by simp [hp]) (by simp [hp]) (by rw [hp]; rfl) _ nofun rfl
  | ext0 | ext1 | ext2 =>
    exact h.after_extract (by simp [hp]) (by simp [hp]) _ nofun (by rw [hp]; rfl)
  | ext3 => exact h.after_lastExtract hp
  | fin => exact { h with }

/-! ### Every step keeps the invariant -/

/-- The ENGINE's step of a running call keeps the invariant, to its end with FIN included. -/
theorem ControlInv.after_microOp {s : State} (h : ControlInv s) (hb : s.status.st = .busy) :
    ControlInv (microOp s.p s) := by
  have hc := (h.callInv (.inl hb)).after_microOp
  by_cases hp : s.p = .fin
  · rw [hp] at hc ⊢
    exact hc.control (.inr ⟨rfl, hp⟩)
  · exact hc.control (.inl (by rw [microOp_status hp, hb]))

/-- An accepted START with room for the result begins a call. -/
theorem callInv_startCall {l c : Nat} {s : State} (hl : l < 2 ^ s.lenW) (hc : c < 2 ^ s.lenW)
    (hr : 4 * (l / 5) ≤ c) : CallInv (startCall l c s) := by
  rw [startCall_spec]
  exact ⟨hl, hc, rfl, rfl, if_pos hr, hr, Nat.zero_le _, fun ht => absurd rfl ht, rfl, nofun⟩

/-- START is the one way into FAIL, with the registers R102 gives it. -/
theorem controlInv_startCall {l c : Nat} {s : State} (hl : l < 2 ^ s.lenW) (hc : c < 2 ^ s.lenW) :
    ControlInv (startCall l c s) := by
  by_cases hr : 4 * (l / 5) ≤ c
  · refine (callInv_startCall hl hc hr).control (.inl ?_)
    rw [startCall_status]
    exact if_pos hr
  · -- Without room `failState` is the one field that is neither vacuous nor about the operands.
    have hpos := Nat.two_pow_pos s.lenW
    rw [startCall_spec]
    simp only [if_neg hr]
    constructor <;> simp_all [code_le, noticeOf_iff_tailOf, tailOf_val]

/-- A HOST access changes none of the registers. -/
theorem controlRegs_hostAccess {a : HostAccess} {s t : State} (h : hostAccess a s = .next t) :
    controlRegs t = controlRegs s := by
  rcases hostAccess_next h with ⟨i, v, -, -, rfl⟩ | ⟨j, v, -, -, rfl⟩ | ⟨x, rfl⟩ <;> rfl

theorem status_of_hostAccess {a : HostAccess} {s t : State} (h : hostAccess a s = .next t) :
    t.status = s.status := by
  rcases hostAccess_next h with ⟨i, v, -, -, rfl⟩ | ⟨j, v, -, -, rfl⟩ | ⟨x, rfl⟩ <;> rfl

theorem ControlInv.after_step {s t : State} (h : ControlInv s) (hs : step s = .next t) :
    ControlInv t := by
  rcases step_next hs with ⟨-, rfl⟩ | ⟨l, c, -, hl, hc, ⟨-, rfl⟩ | ⟨-, rfl⟩⟩ |
    ⟨-, ⟨hb, rfl⟩ | ⟨-, rfl⟩⟩ | ⟨a, -, ha⟩
  · exact controlInv_of_idle rfl rfl rfl rfl rfl
  · exact h.congr rfl
  · exact controlInv_startCall hl hc
  · exact (h.congr (t := lowerEvents (takeTurn s)) rfl).after_microOp hb
  · exact h.congr rfl
  · exact h.congr ((controlRegs_hostAccess ha).trans rfl)

end Sys2Proof.Machine

/-- Settles O31: the last step is one of the branches of `step_next`, and each keeps the invariant. -/
theorem stepKeepsTheControlInvariant : Obligations.StepKeepsTheControlInvariant := by
  unfold Obligations.StepKeepsTheControlInvariant
  exact fun s t h hs => ⟨h.after_step hs, Sys2Proof.Machine.lenW_of_step hs⟩
end

section
/-! The data of a call (R33, V7 and V8), in the same way: while BUSY or DONE it is one predicate,
`CallData`, of the staged bytes and of the words counted so far. -/

namespace Sys2Proof.Machine

/-- V7 and V8 of a call that is running or has ended well. -/
structure CallData (s : State) : Prop where
  staged : s.p ≠ .tst → s.p ≠ .fin →
    ∀ i : Fin 5, i.val < s.p.code.toNat - 1 → s.stg.get i = inAt s (5 * s.k + i.val)
  written : ∀ j, j < s.count → (outAt s j).toNat = wordOf (inAt s) j

theorem CallData.dataInv {s : State} (h : CallData s) : DataInv s :=
  ⟨fun _ => h.staged, fun _ => h.written⟩

theorem CallData.resultInv {s : State} (h : CallData s) : ResultInv s := fun _ => h.written

theorem DataInv.callData {s : State} (h : DataInv s) (hb : s.status.st = .busy) : CallData s :=
  ⟨h.staged hb, h.written hb⟩

/-- In DONE the position is FIN, where no byte is staged (V9). -/
theorem ResultInv.callData {s : State} (h : ResultInv s) (hc : ControlInv s)
    (hd : s.status.st = .done) : CallData s :=
  ⟨fun _ hf => absurd (hc.doneEnd hd).1 hf, h hd⟩

/-- Nothing is claimed of the data before a call and after a failed one. -/
theorem dataInv_of_not_busy {s : State} (h : s.status.st ≠ .busy) : DataInv s :=
  ⟨fun hb => absurd hb h, fun hb => absurd hb h⟩

theorem resultInv_of_not_done {s : State} (h : s.status.st ≠ .done) : ResultInv s :=
  fun hd => absurd hd h

/-- The data of a call is a matter of its registers, of the input below LEN and of the words counted. -/
theorem CallData.congr {s t : State} (h : CallData s) (hc : CallInv s) (hg : t.stg = s.stg)
    (hr : controlRegs t = controlRegs s) (hin : ∀ i, i < s.len → inAt t i = inAt s i)
    (hout : ∀ j, j < s.count → outAt t j = outAt s j) : CallData t := by
  simp only [controlRegs, Prod.mk.injEq] at hr
  obtain ⟨-, -, -, hn, hk, hp, -⟩ := hr
  constructor
  · rw [hp, hk, hg]
    intro ht hf i hi
    have hopen := hc.blockOpen ht hf
    have hi5 := i.isLt
    rw [hin _ (by omega), h.staged ht hf i hi]
  · rw [hn]
    intro j hj
    have hj4 : j < 4 * (s.len / 5) := Nat.lt_of_lt_of_le hj hc.count_le
    rw [hout j hj, h.written j hj, wordOf_congr hin hj4]

/-! ### Each micro-operation keeps the data of its call -/

/-- A load stages the next byte of the block (R142 to R146). -/
theorem CallData.after_load {s : State} (h : CallData s) (ht : s.p ≠ .tst) (hf : s.p ≠ .fin)
    (i : Fin 5) {q : SeqPos} (hcode : s.p.code.toNat = i.val + 1)
    (hnext : q.code.toNat = i.val + 2) : CallData (loadByte i q s) where
  staged _ _ n hn := by
    have hn' : n.val < q.code.toNat - 1 := hn
    rw [loadByte_eq]
    show (s.stg.set i _).get n = inAt s (5 * s.k + n.val)
    rw [Staging.get_set]
    split
    · next e => rw [e, eaIn]
    · next e =>
      have : n.val ≠ i.val := fun hv => e (Fin.ext hv)
      exact h.staged ht hf n (by omega)
  written := h.written

/-- What an extract writes is the reference word of its place (R147 to R150, R104). -/
theorem CallData.extractWord_toNat {s : State} (h : CallData s) (ht : s.p ≠ .tst)
    (hf : s.p ≠ .fin) (hfull : 6 ≤ s.p.code.toNat) (n : Fin 4) :
    (outAt (extractWord n s) (4 * s.k + n.val)).toNat = wordOf (inAt s) (4 * s.k + n.val) := by
  have byte (i : Fin 5) : s.stg.get i = inAt s (5 * s.k + i.val) :=
    h.staged ht hf i (by omega)
  have b0 := byte 0
  have b1 := byte 1
  have b2 := byte 2
  have b3 := byte 3
  have b4 := byte 4
  rw [outAt_extractWord, eaOut, if_pos rfl, zext16_lane_toNat, lane_get_eq_unpack40, wordOf_block,
    b0, b1, b2, b3, b4]
  rfl

/-- After an extract the words counted, the new one among them, are in OUT. -/
theorem CallData.written_extractWord {s : State} (h : CallData s) (hc : CallInv s)
    (ht : s.p ≠ .tst) (hf : s.p ≠ .fin) (hfull : 6 ≤ s.p.code.toNat) (n : Fin 4)
    (hn : wordsDone s.p = n.val) :
    ∀ j, j < (extractWord n s).count →
      (outAt (extractWord n s) j).toNat = wordOf (inAt s) j := by
  intro j hj
  have hcount : (extractWord n s).count = s.count + 1 := hc.succReg_count ht hf
  have hwords := hc.countWords
  rw [hcount] at hj
  by_cases hlast : j = 4 * s.k + n.val
  · rw [hlast]
    exact h.extractWord_toNat ht hf hfull n
  · rw [outAt_extractWord, eaOut, if_neg hlast]
    exact h.written j (by omega)

/-- The first three extracts leave the staged bytes in place (R147 to R149). -/
theorem CallData.after_extract {s : State} (h : CallData s) (hc : CallInv s) (ht : s.p ≠ .tst)
    (hf : s.p ≠ .fin) (hfull : 6 ≤ s.p.code.toNat) (n : Fin 4) (hn : wordsDone s.p = n.val)
    (q : SeqPos) : CallData (setPos q (extractWord n s)) where
  staged _ _ i _ := h.staged ht hf i (by omega)
  written := h.written_extractWord hc ht hf hfull n hn

/-- Every micro-operation at the position of the block keeps the data of the call. -/
theorem CallData.after_microOp {s : State} (h : CallData s) (hc : CallInv s) :
    CallData (microOp s.p s) := by
  cases hp : s.p with
  | tst =>
    refine ⟨fun _ hf i hi => ?_, h.written⟩
    simp only [microOp] at hf hi
    split at hf <;> simp_all [SeqPos.code]
  | ldb0 | ldb1 | ldb2 | ldb3 | ldb4 =>
    exact h.after_load (by simp [hp]) (by simp [hp]) _ (by rw [hp]; rfl) rfl
  | ext0 | ext1 | ext2 =>
    exact h.after_extract hc (by simp [hp]) (by simp [hp]) (by rw [hp]; decide) _
      (by rw [hp]; rfl) _
  | ext3 =>
    exact ⟨fun ht => absurd rfl ht,
      h.written_extractWord hc (by simp [hp]) (by simp [hp]) (by rw [hp]; decide) 3
        (by rw [hp]; rfl)⟩
  | fin => exact ⟨fun _ hf => absurd hp hf, h.written⟩

/-! ### Every step keeps the data -/

/-- At TST with no word counted there is nothing to be right yet. -/
theorem callData_of_tst {s : State} (hp : s.p = .tst) (hn : s.count = 0) : CallData s :=
  ⟨fun ht => absurd hp ht, fun j hj => absurd (hn ▸ hj) (Nat.not_lt_zero j)⟩

/-- An accepted START begins with no word counted and no byte staged (R102). -/
theorem callData_startCall (l c : Nat) (s : State) : CallData (startCall l c s) :=
  callData_of_tst (startCall_p l c s) (startCall_count l c s)

/-- The HOST leaves the data of a call in place where it touches neither the input nor the words. -/
theorem CallData.after_hostAccess {s t : State} {a : HostAccess} (h : CallData s) (hc : CallInv s)
    (hin : ∀ i v, a = .writeIn i v → s.len ≤ i) (hout : ∀ j v, a = .writeOut j v → s.count ≤ j)
    (ha : hostAccess a s = .next t) : CallData t := by
  rcases hostAccess_next ha with ⟨i, v, e, -, rfl⟩ | ⟨j, v, e, -, rfl⟩ | ⟨x, rfl⟩
  · refine h.congr hc rfl rfl (fun n hn => ?_) (fun _ _ => rfl)
    have := hin i v e
    rw [inAt_lowerEvents, inAt_write, if_neg (by omega)]
  · refine h.congr hc rfl rfl (fun _ _ => rfl) (fun n hn => ?_)
    have := hout j v e
    rw [outAt_lowerEvents, outAt_write, if_neg (by omega)]
  · exact h.congr hc rfl rfl (fun _ _ => rfl) (fun _ _ => rfl)

/-- While BUSY every HOST access that has a meaning leaves the data of the call in place (R57). -/
theorem CallData.after_hostAccess_of_busy {s t : State} {a : HostAccess} (h : CallData s)
    (hc : CallInv s) (hb : s.status.st = .busy) (ha : hostAccess a s = .next t) : CallData t := by
  have hcount := hc.count_le
  have hroom := hc.room
  refine h.after_hostAccess hc (fun i v e => ?_) (fun j v e => ?_) ha
  · subst e
    by_contra hlt
    simp [hostAccess, hb, Nat.not_le.mp hlt] at ha
  · subst e
    by_contra hlt
    have hj : j < s.cap := by omega
    simp [hostAccess, hb, hj] at ha

/-- Every step keeps the data of a call, but for the HOST's writes into the result of an ended one. -/
theorem CallData.after_step {s t : State} (h : CallData s) (hc : CallInv s)
    (hst : s.status.st = .busy ∨ s.status.st = .done) (hno : ¬OverwritesResult s)
    (hs : step s = .next t) : CallData t := by
  have taken : CallData (takeTurn s) := h.congr hc rfl rfl (fun _ _ => rfl) (fun _ _ => rfl)
  have lowered : CallData (lowerEvents (takeTurn s)) :=
    h.congr hc rfl rfl (fun _ _ => rfl) (fun _ _ => rfl)
  rcases step_next hs with ⟨-, rfl⟩ | ⟨l, c, -, -, -, ⟨-, rfl⟩ | ⟨-, rfl⟩⟩ |
    ⟨-, ⟨-, rfl⟩ | ⟨-, rfl⟩⟩ | ⟨a, hn, ha⟩
  · exact callData_of_tst rfl rfl
  · exact lowered
  · exact callData_startCall l c _
  · exact lowered.after_microOp { hc with }
  · exact lowered
  · rcases hst with hb | hd
    · exact taken.after_hostAccess_of_busy { hc with } hb ha
    · refine taken.after_hostAccess { hc with } (fun i v e => ?_) (fun j v e => ?_) ha
      · exact Nat.not_lt.mp fun hi => hno ⟨hd, .inl ⟨i, v, by rw [hn, e], hi⟩⟩
      · exact Nat.not_lt.mp fun hj => hno ⟨hd, .inr ⟨j, v, by rw [hn, e], hj⟩⟩

/-- Outside a call only a command changes STATUS, and after it there is nothing to be right yet. -/
theorem callData_or_st_eq_of_step {s t : State} (hb : s.status.st ≠ .busy)
    (hs : step s = .next t) : CallData t ∨ t.status.st = s.status.st := by
  rcases step_next hs with ⟨-, rfl⟩ | ⟨l, c, -, -, -, ⟨-, rfl⟩ | ⟨-, rfl⟩⟩ |
    ⟨-, ⟨hb', -⟩ | ⟨-, rfl⟩⟩ | ⟨a, -, ha⟩
  · exact .inl (callData_of_tst rfl rfl)
  · exact .inr rfl
  · exact .inl (callData_startCall l c _)
  · exact absurd hb' hb
  · exact .inr rfl
  · exact .inr (by rw [status_of_hostAccess ha, takeTurn_status])

theorem DataInv.after_step {s t : State} (h : DataInv s) (hc : ControlInv s)
    (hs : step s = .next t) : DataInv t := by
  by_cases hb : s.status.st = .busy
  · have hno : ¬OverwritesResult s := fun ho => by rw [OverwritesResult, hb] at ho; cases ho.1
    exact ((h.callData hb).after_step (hc.callInv (.inl hb)) (.inl hb) hno hs).dataInv
  · rcases callData_or_st_eq_of_step hb hs with ht | ht
    · exact ht.dataInv
    · exact dataInv_of_not_busy (ht ▸ hb)

theorem ResultInv.after_step {s t : State} (h : ResultInv s) (hc : ControlInv s) (hd : DataInv s)
    (hno : ¬OverwritesResult s) (hs : step s = .next t) : ResultInv t := by
  by_cases hb : s.status.st = .busy
  · exact ((hd.callData hb).after_step (hc.callInv (.inl hb)) (.inl hb) hno hs).resultInv
  by_cases he : s.status.st = .done
  · exact ((h.callData hc he).after_step (hc.callInv (.inr he)) (.inr he) hno hs).resultInv
  · rcases callData_or_st_eq_of_step hb hs with ht | ht
    · exact ht.resultInv
    · exact resultInv_of_not_done (ht ▸ he)

end Sys2Proof.Machine

/-- Settles O32: by `CallData`, which says V7 and V8 of BUSY and DONE alike. -/
theorem stepKeepsTheDataInvariant : Obligations.StepKeepsTheDataInvariant := by
  unfold Obligations.StepKeepsTheDataInvariant
  exact fun s t hc hd hs => ⟨hd.after_step hc hs, fun hr hno => hr.after_step hc hd hno hs⟩
end

section
/-! Which operation writes which register (R21, R25). -/

namespace Sys2Proof.Machine

theorem dec_ne_rst (p : SeqPos) : dec p ≠ .rst := by cases p <;> nofun

theorem dec_ne_start (p : SeqPos) (l c : Nat) : dec p ≠ .start l c := by cases p <;> nofun

theorem dec_eq_fin_iff (p : SeqPos) : dec p = .fin ↔ p = .fin := by cases p <;> simp [dec]

/-! ### What changes in a register says which micro-operation it was -/

section

variable {p : SeqPos} {t : State}

theorem eq_ext3_of_microOp_k_ne (h : (microOp p t).k ≠ t.k) : p = .ext3 := by
  cases p with
  | ext3 => rfl
  | _ => exact absurd rfl h

theorem ne_fin_of_microOp_p_ne (h : (microOp p t).p ≠ t.p) : p ≠ .fin := by
  rintro rfl
  exact h rfl

theorem eq_fin_of_microOp_status_ne (h : (microOp p t).status ≠ t.status) : p = .fin := by
  by_contra hp
  exact h (microOp_status hp t)

theorem ext_of_microOp_count_ne (h : (microOp p t).count ≠ t.count) :
    dec p = .ext0 ∨ dec p = .ext1 ∨ dec p = .ext2 ∨ dec p = .ext3 := by
  cases p with
  | ext0 | ext1 | ext2 | ext3 => simp [dec]
  | _ => exact absurd rfl h

/-- A load writes its own staging register and no other (R11). -/
theorem eq_of_get_set_ne {g : Staging} {i n : Fin 5} {v : Byte}
    (h : (g.set i v).get n ≠ g.get n) : n = i := by
  by_contra hn
  exact h (by rw [Staging.get_set, if_neg hn])

theorem ldb_of_microOp_stg_ne {n : Fin 5} (h : (microOp p t).stg.get n ≠ t.stg.get n) :
    dec p = #v[Instr.ldb0, Instr.ldb1, Instr.ldb2, Instr.ldb3, Instr.ldb4][n] := by
  cases p with
  | ldb0 | ldb1 | ldb2 | ldb3 | ldb4 => rw [eq_of_get_set_ne h]; rfl
  | _ => exact absurd rfl h

/-- The tail fields and the cause are START's and RST's alone: FIN writes ST only (R25). -/
theorem microOp_status_fields (p : SeqPos) (t : State) :
    (microOp p t).status = { t.status with st := (microOp p t).status.st } := by
  cases p <;> rfl

end

end Sys2Proof.Machine

open Sys2Proof Sys2Proof.Machine

/-- Settles O25: each branch of `step_next` is one of the transitions listed or leaves ST. -/
theorem statusChangesOnlyAsListed : Obligations.StatusChangesOnlyAsListed := by
  unfold Obligations.StatusChangesOnlyAsListed
  intro s t hs
  rcases step_next hs with ⟨hn, rfl⟩ | ⟨l, c, hn, -, -, ⟨hb, rfl⟩ | ⟨hb, rfl⟩⟩ |
    ⟨hn, ⟨hb, rfl⟩ | ⟨hb, rfl⟩⟩ | ⟨a, hn, ha⟩
  · simp [hn, Status.idle]
  · simp [hn, hb]
  · refine ⟨by simp [hn], fun l' c' he _ => ?_, by simp [hn], fun _ => .inr (.inl ⟨hb, l, c, hn⟩)⟩
    obtain ⟨rfl, rfl⟩ : l = l' ∧ c = c' := by simpa [hn] using he
    rw [startCall_status]
    exact ⟨fun hr => if_pos hr, fun hr => if_neg (Nat.not_le.mpr hr)⟩
  · refine ⟨by simp [hn, dec_ne_rst], by simp [hn, dec_ne_start], fun he _ => ?_,
      fun hne => .inr (.inr ⟨hb, ?_⟩)⟩
    · have hp : s.p = .fin := by simpa [hn, dec_eq_fin_iff] using he
      rw [hp]
      rfl
    · have hp : s.p = .fin := eq_fin_of_microOp_status_ne fun e => hne (congrArg Status.st e)
      rw [hn, hp]
      rfl
  · simp [hn, hb, dec_ne_rst, dec_ne_start]
  · simp [hn, status_of_hostAccess ha]

/-- Settles O26: each branch of `exec_next` writes the registers R25 lists for it. -/
theorem registersAreWrittenOnlyAsListed : Obligations.RegistersAreWrittenOnlyAsListed := by
  unfold Obligations.RegistersAreWrittenOnlyAsListed
  intro i s t h
  rcases exec_next h with ⟨rfl, rfl⟩ | ⟨l, c, rfl, -, -, ⟨-, rfl⟩ | ⟨-, rfl⟩⟩ |
    ⟨p, rfl, ⟨-, rfl⟩ | ⟨-, rfl⟩⟩
  · simp
  · simp
  · simp
  · refine ⟨fun n hn => .inr (ldb_of_microOp_stg_ne hn), microOp_lenW _ _, fun hk => ?_,
      fun hp => ?_, fun hl => ?_, fun hc => ?_, fun hn => ?_, fun hst => ?_, fun hn => ?_,
      fun hd => ?_, fun hc => ?_⟩
    · exact .inr (.inr (by rw [eq_ext3_of_microOp_k_ne hk]; rfl))
    · exact fun hf => ne_fin_of_microOp_p_ne hp ((dec_eq_fin_iff p).mp hf)
    · exact absurd (microOp_len _ _) hl
    · exact absurd (microOp_cap _ _) hc
    · exact .inr (.inr (ext_of_microOp_count_ne hn))
    · exact .inr (.inr ((dec_eq_fin_iff p).mpr
        (eq_fin_of_microOp_status_ne fun he => hst (congrArg Status.st he))))
    · exact absurd (congrArg Status.notice (microOp_status_fields _ _)) hn
    · exact absurd (congrArg Status.disc (microOp_status_fields _ _)) hd
    · exact absurd (congrArg Status.cause (microOp_status_fields _ _)) hc
  · simp
end

section
/-! STATUS as a byte (R20). -/

namespace Sys2Proof.Machine

theorem St.code_lt (v : St) : v.code < 4 := by cases v <;> decide

theorem Cause.code_lt (v : Cause) : v.code < 2 := by cases v <;> decide

/-- The four fields fit in eight bits. -/
theorem Status.byte_toNat (t : Status) : t.byte.toNat = t.number := by
  have hs := t.st.code_lt
  have hn := t.notice.toNat_le
  have hd := t.disc.isLt
  have hc := t.cause.code_lt
  rw [Status.byte, BitVec.toNat_ofNat]
  exact Nat.mod_eq_of_lt (by rw [Status.number]; omega)

/-- Each field is read back from its bits. -/
theorem Status.byte_fields (t : Status) :
    (t.byte.extractLsb' 0 2).toNat = t.st.code ∧
    (t.byte.extractLsb' 2 1).toNat = t.notice.toNat ∧
    (t.byte.extractLsb' 3 3).toNat = t.disc.val ∧
    (t.byte.extractLsb' 6 2).toNat = t.cause.code := by
  have hs := t.st.code_lt
  have hn := t.notice.toNat_le
  have hd := t.disc.isLt
  have hc := t.cause.code_lt
  simp only [BitVec.extractLsb'_toNat, Status.byte_toNat, Status.number,
    Nat.shiftRight_eq_div_pow]
  omega

/-- CAUSE as ST determines it (V3). -/
def causeOf (v : St) : Cause := if v = .fail then .resourceExhausted else .noCause

/-- The invariant leaves STATUS the choice of ST and, after a START, of DISC (V2, V3). -/
theorem ControlInv.status_eq {s : State} (h : ControlInv s) :
    s.status = Status.idle ∨
      s.status.st ≠ .idle ∧
      s.status = { st := s.status.st, notice := decide (s.status.disc ≠ 0), disc := s.status.disc
                   cause := causeOf s.status.st } := by
  by_cases hi : s.status.st = .idle
  · exact .inl (h.idleClear hi).2.2.2
  · have hn : s.status.notice = decide (s.status.disc ≠ 0) := by
      rw [Bool.eq_iff_iff, decide_eq_true_iff]
      exact (h.tailFields hi).2
    have hc : s.status.cause = causeOf s.status.st := by
      have := h.causeFail
      unfold causeOf
      split
      · next hf => exact this.mpr hf
      · next hf =>
        cases hcause : s.status.cause with
        | noCause => rfl
        | resourceExhausted => exact absurd (this.mp hcause) hf
    refine .inr ⟨hi, ?_⟩
    rw [← hn, ← hc]

/-- The sixteen values of table T-STATUS. -/
def statusBytes : List (BitVec 8) :=
  [0x00, 0x01, 0x0D, 0x15, 0x1D, 0x25, 0x02, 0x0E, 0x16, 0x1E, 0x26, 0x43, 0x4F, 0x57, 0x5F, 0x67]

/-- A STATUS as `ControlInv.status_eq` gives it is one of the table's. -/
theorem Status.byte_mem_of_causeOf {v : St} (hv : v ≠ .idle) (d : Fin 5) :
    Status.byte { st := v, notice := decide (d ≠ 0), disc := d, cause := causeOf v } ∈
      statusBytes := by
  cases v with
  | idle => exact absurd rfl hv
  | busy | done | fail => revert d; decide

theorem ControlInv.byte_mem_statusBytes {s : State} (h : ControlInv s) :
    s.status.byte ∈ statusBytes := by
  rcases h.status_eq with hs | ⟨hi, hs⟩
  · rw [hs]
    decide
  · rw [hs]
    exact Status.byte_mem_of_causeOf hi _

end Sys2Proof.Machine

open Sys2Proof Sys2Proof.Machine

/-- Settles O36: the fields by arithmetic on the number, the values by the invariant. -/
theorem statusByteHasItsFields : Obligations.StatusByteHasItsFields := by
  unfold Obligations.StatusByteHasItsFields
  exact ⟨fun t => ⟨t.byte_toNat, t.byte_fields⟩, fun _ => rfl, fun s h => h.byte_mem_statusBytes⟩
end

section
/-! The word that selects an operation, and the step it selects (R14, R140). -/

namespace Sys2Proof

/-- The code of a position names it (R77). -/
theorem SeqPos.ofCode_code (p : SeqPos) : SeqPos.ofCode p.code = some p := by cases p <;> rfl

theorem decode_pos (w : Nat) (p : SeqPos) : decode (w := w) (.seq p.code) = .ok (dec p) := by
  simp only [decode, SeqPos.ofCode_code]

end Sys2Proof

namespace Sys2Proof.Machine

/-- With the turn the ENGINE's the word is the code of P (R14). -/
theorem selectedWord_of_engine {s : State} (h : s.pending = [] ∨ s.pending.head? = some .engine) :
    selectedWord s = some (.seq s.p.code) := by
  rcases h with h | h
  · simp only [selectedWord, h]
  · obtain ⟨ms, hp⟩ := List.head?_eq_some_iff.mp h
    simp only [selectedWord, hp]

theorem selectedWord_of_rst {s : State} (h : s.pending.head? = some .rst) :
    selectedWord s = some (.pin 1#1) := by
  obtain ⟨ms, hp⟩ := List.head?_eq_some_iff.mp h
  simp only [selectedWord, hp]

/-- What the HOST presents is the word where it is one of the port (R84). -/
theorem selectedWord_of_start {s : State} {c : Nat} (h : s.pending.head? = some (.start c)) :
    selectedWord s =
      if c < 2 ^ (2 * s.lenW) then some (.cmd (BitVec.ofNat (2 * s.lenW) c)) else none := by
  obtain ⟨ms, hp⟩ := List.head?_eq_some_iff.mp h
  simp only [selectedWord, hp]

theorem selectedWord_of_access {s : State} {a : HostAccess}
    (h : s.pending.head? = some (.access a)) : selectedWord s = none := by
  obtain ⟨ms, hp⟩ := List.head?_eq_some_iff.mp h
  simp only [selectedWord, hp]

/-- The word that selects decodes to the operation that comes next. -/
theorem nextTurn_of_selectedWord {s : State} {o : OpWord s.lenW} {i : Instr}
    (ho : selectedWord s = some o) (hd : decode o = .ok i) : nextTurn s = .operation i := by
  have engine (h : s.pending = [] ∨ s.pending.head? = some .engine) : dec s.p = i := by
    rw [selectedWord_of_engine h] at ho
    rw [← Option.some.inj ho, decode_pos] at hd
    exact Except.ok.inj hd
  cases hp : s.pending with
  | nil => simp only [nextTurn, hp, engine (.inl hp)]
  | cons m ms =>
    have hh : s.pending.head? = some m := by rw [hp]; rfl
    cases m with
    | engine => simp only [nextTurn, hp, engine (.inr hh)]
    | rst =>
      rw [selectedWord_of_rst hh] at ho
      rw [← Option.some.inj ho] at hd
      simp only [nextTurn, hp, ← Except.ok.inj hd]
    | start c =>
      rw [selectedWord_of_start hh] at ho
      split at ho
      · next hc =>
        rw [← Option.some.inj ho, decode, BitVec.toNat_ofNat, Nat.mod_eq_of_lt hc] at hd
        simp only [nextTurn, hp, ← Except.ok.inj hd]
      · cases ho
    | access a =>
      rw [selectedWord_of_access hh] at ho
      cases ho

/-- A number that is no word of the command port is refused (log 10). -/
theorem step_of_start_too_wide {s : State} {c : Nat} (h : s.pending.head? = some (.start c))
    (hc : 2 ^ (2 * s.lenW) ≤ c) : step s = .refused .startOperandTooWide := by
  obtain ⟨ms, hp⟩ := List.head?_eq_some_iff.mp h
  rw [step_of_start hp]
  exact execStart_of_not_fits fun hf =>
    absurd ((cmdCap_fits_iff s.lenW c).mp hf.2) (Nat.not_lt.mpr hc)

end Sys2Proof.Machine

open Sys2Proof Sys2Proof.Machine

/-- Settles O6: each form of the HOST's turn by its own lemma. -/
theorem stepRunsTheSelectedOperation : Obligations.StepRunsTheSelectedOperation := by
  unfold Obligations.StepRunsTheSelectedOperation
  refine ⟨fun s o i ho hd => ?_, fun s => selectedWord_of_engine, fun s => selectedWord_of_rst,
    fun s c h => ?_, fun s c => step_of_start_too_wide, fun s a h => ?_⟩
  · rw [step, nextTurn_of_selectedWord ho hd]
    rfl
  · rw [selectedWord_of_start h, if_pos c.isLt, BitVec.ofNat_toNat, BitVec.setWidth_eq]
  · obtain ⟨ms, hp⟩ := List.head?_eq_some_iff.mp h
    rw [step_of_access hp, hp]
    rfl
end

section
/-! The invariants at reset, and in every state a run reaches (R33). -/

namespace Sys2Proof.Machine

/-- A micro-operation writes OUT in the extracts only, by a write. -/
theorem wf_microOp {p : SeqPos} {t : State} (h : t.outMem.wf) : (microOp p t).outMem.wf := by
  cases p with
  | ext0 | ext1 | ext2 | ext3 => exact Memory.write_wf _ _ h
  | _ => exact h

theorem MemoryInv.after_step {s t : State} (h : MemoryInv s) (hs : step s = .next t) :
    MemoryInv t := by
  rcases step_next hs with ⟨-, rfl⟩ | ⟨l, c, -, -, -, ⟨-, rfl⟩ | ⟨-, rfl⟩⟩ |
    ⟨-, ⟨-, rfl⟩ | ⟨-, rfl⟩⟩ | ⟨a, -, ha⟩
  · exact ⟨h.input, h.output⟩
  · exact ⟨h.input, h.output⟩
  · rw [startCall_spec]
    exact ⟨h.input, h.output⟩
  · exact ⟨by rw [microOp_inMem]; exact h.input, wf_microOp h.output⟩
  · exact ⟨h.input, h.output⟩
  · rcases hostAccess_next ha with ⟨i, v, -, -, rfl⟩ | ⟨j, v, -, -, rfl⟩ | ⟨x, rfl⟩
    · exact ⟨Memory.write_wf _ _ h.input, h.output⟩
    · exact ⟨h.input, Memory.write_wf _ _ h.output⟩
    · exact ⟨h.input, h.output⟩

/-- The notice of a tail names its length, 1 to 4 (R102, R174). -/
theorem noticesLegal_startCall {l c : Nat} {s : State} (h : NoticesLegal s) :
    NoticesLegal (startCall l c s) := by
  rw [startCall_spec]
  intro r hr
  rcases List.mem_append.mp hr with hr | hr
  · exact h r hr
  · split at hr
    · cases hr
    · obtain rfl := List.mem_singleton.mp hr
      dsimp only [tailOf]
      omega

theorem NoticesLegal.after_step {s t : State} (h : NoticesLegal s) (hs : step s = .next t) :
    NoticesLegal t := by
  rcases step_next hs with ⟨-, rfl⟩ | ⟨l, c, -, -, -, ⟨-, rfl⟩ | ⟨-, rfl⟩⟩ |
    ⟨-, ⟨-, rfl⟩ | ⟨-, rfl⟩⟩ | ⟨a, -, ha⟩
  · exact h
  · exact h
  · exact noticesLegal_startCall h
  · rw [NoticesLegal, microOp_diag]
    exact h
  · exact h
  · rcases hostAccess_next ha with ⟨i, v, -, -, rfl⟩ | ⟨j, v, -, -, rfl⟩ | ⟨x, rfl⟩ <;> exact h

/-- The invariants that hold whatever the HOST does. -/
structure MachineInv (s : State) : Prop where
  memory : MemoryInv s
  control : ControlInv s
  data : DataInv s
  notices : NoticesLegal s

theorem MachineInv.after_step {s t : State} (h : MachineInv s) (hs : step s = .next t) :
    MachineInv t :=
  ⟨h.memory.after_step hs, h.control.after_step hs, h.data.after_step h.control hs,
    h.notices.after_step hs⟩

/-- The state after reset meets the invariants, with whatever turns to come (R201). -/
theorem machineInv_reset (w : Nat) (moves : List HostMove) :
    MachineInv { State.resetOf w with pending := moves } where
  memory := ⟨Memory.nil_wf, Memory.nil_wf⟩
  control := controlInv_of_idle rfl rfl rfl rfl rfl
  data := dataInv_of_not_busy nofun
  notices := nofun

theorem Reachable.machineInv {s : State} (h : Reachable s) : MachineInv s := by
  induction h with
  | reset _ moves => exact machineInv_reset _ moves
  | step _ hs ih => exact ih.after_step hs

/-- No step changes LEN_W, which is at least 3 (R7). -/
theorem Reachable.lenW_ge {s : State} (h : Reachable s) : 3 ≤ s.lenW := by
  induction h with
  | reset hw _ => exact hw
  | step _ hs ih => rw [lenW_of_step hs]; exact ih

theorem ReachableInPlace.reachable {s : State} (h : ReachableInPlace s) : Reachable s := by
  induction h with
  | reset hw moves => exact .reset hw moves
  | step _ _ hs ih => exact .step ih hs

theorem ReachableInPlace.resultInv {s : State} (h : ReachableInPlace s) : ResultInv s := by
  induction h with
  | reset _ _ => exact resultInv_of_not_done nofun
  | step hr hno hs ih =>
    have hm := hr.reachable.machineInv
    exact ih.after_step hm.control hm.data hno hs

end Sys2Proof.Machine

open Sys2Proof Sys2Proof.Machine

/-- Settles O34: nothing is listed, counted or running at reset. -/
theorem resetMeetsTheInvariants : Obligations.ResetMeetsTheInvariants := by
  unfold Obligations.ResetMeetsTheInvariants
  intro w moves
  have h := machineInv_reset w moves
  exact ⟨h.memory, h.control, h.data, resultInv_of_not_done nofun, h.notices⟩

/-- Settles O35, by induction on the run: reset meets the invariants and every step keeps them. -/
theorem reachableStatesMeetTheInvariants : Obligations.ReachableStatesMeetTheInvariants := by
  unfold Obligations.ReachableStatesMeetTheInvariants
  refine ⟨fun s h => ?_, fun s h => ⟨h.reachable, h.resultInv⟩⟩
  have hm := h.machineInv
  exact ⟨h.lenW_ge, hm.memory, hm.control, hm.data, hm.notices⟩
end

section
/-! The run of a call the HOST leaves alone, from its START to its end (R158, R163). -/

namespace Sys2Proof.Machine

/-- The ENGINE steps a running call has left: ten for each block to come, TST and FIN (R158). -/
def stepsLeft (s : State) : Nat :=
  if s.p = .fin then 1 else 10 * (s.len / 5 - s.k) + 2 - s.p.code.toNat

/-- Only at FIN is a single step left. -/
theorem stepsLeft_ge {s : State} (hc : CallInv s) (hp : s.p ≠ .fin) : 2 ≤ stepsLeft s := by
  rw [stepsLeft, if_neg hp]
  by_cases ht : s.p = .tst
  · rw [ht]
    simp [SeqPos.code]
  · have hcode : s.p.code.toNat ≤ 10 := code_le s.p
    have := hc.blockOpen ht hp
    omega

/-- Going one position on inside a block is one of the steps left. -/
theorem stepsLeft_eq_succ_of_next {s t : State} (hlen : t.len = s.len) (hk : t.k = s.k)
    (hp : s.p ≠ .fin) (hq : t.p ≠ .fin) (hcode : t.p.code.toNat = s.p.code.toNat + 1)
    (hopen : s.k < s.len / 5) : stepsLeft s = stepsLeft t + 1 := by
  have := code_le t.p
  rw [stepsLeft, stepsLeft, if_neg hp, if_neg hq, hlen, hk]
  omega

/-- Each micro-operation but FIN is one of the steps left. -/
theorem stepsLeft_microOp {s : State} (hc : CallInv s) (hp : s.p ≠ .fin) :
    stepsLeft s = stepsLeft (microOp s.p s) + 1 := by
  cases hq : s.p with
  | tst =>
    by_cases hb : eaIn s.k 5 ≤ s.len
    · have hm : microOp .tst s = setPos .ldb0 s := by simp only [microOp, if_pos hb]
      rw [eaIn] at hb
      rw [hm]
      exact stepsLeft_eq_succ_of_next rfl rfl hp nofun (by rw [hq]; rfl) (by omega)
    · have hm : microOp .tst s = setPos .fin s := by simp only [microOp, if_neg hb]
      have hend : s.len / 5 - s.k = 0 := by rw [eaIn] at hb; omega
      rw [hm, stepsLeft, if_neg hp, hend, hq]
      rfl
  | ldb0 | ldb1 | ldb2 | ldb3 | ldb4 | ext0 | ext1 | ext2 =>
    exact stepsLeft_eq_succ_of_next rfl rfl hp nofun (by rw [hq]; rfl)
      (hc.blockOpen (by simp [hq]) hp)
  | ext3 =>
    have hopen := hc.blockOpen (by simp [hq]) hp
    have hks : (microOp .ext3 s).k = s.k + 1 := hc.succReg_k (by simp [hq]) hp
    have hcode : SeqPos.ext3.code.toNat = 9 := rfl
    have hnext : stepsLeft (microOp .ext3 s) = 10 * (s.len / 5 - (microOp .ext3 s).k) + 2 := rfl
    rw [hnext, stepsLeft, if_neg hp, hks, hq, hcode]
    omega
  | fin => exact absurd hq hp

/-- `t` is the good end of the call that runs in `s`. -/
structure EndsIn (s t : State) : Prop where
  st : t.status.st = .done
  pos : t.p = .fin
  regs : CallInv t
  data : CallData t
  events : t.events = { done := true, fail := false, notice := false }
  len : t.len = s.len
  cap : t.cap = s.cap
  inMem : t.inMem = s.inMem
  diag : t.diag = s.diag

/-- FIN ends the call (R151). -/
theorem endsIn_fin {s : State} (hc : CallInv s) (hd : CallData s) (hp : s.p = .fin) :
    EndsIn s (microOp .fin (lowerEvents s)) where
  st := rfl
  pos := hp
  regs := { hc with }
  data := ⟨fun _ hf => absurd hp hf, hd.written⟩
  events := rfl
  len := rfl
  cap := rfl
  inMem := rfl
  diag := rfl

/-- A running call the HOST leaves alone ends DONE in exactly the steps it has left. -/
theorem exists_endsIn {n : Nat} {s : State} (hc : CallInv s) (hd : CallData s)
    (hb : s.status.st = .busy) (hpend : s.pending = []) (hn : stepsLeft s = n + 1) :
    ∃ t, steps (n + 1) s = .next t ∧ EndsIn s t := by
  have hs := step_of_busy hb hpend
  induction n generalizing s with
  | zero =>
    have hp : s.p = .fin := by
      by_contra hp
      have := stepsLeft_ge hc hp
      omega
    rw [hp] at hs
    exact ⟨_, steps_succ 0 hs, endsIn_fin hc hd hp⟩
  | succ n ih =>
    have hp : s.p ≠ .fin := fun hp => by
      rw [stepsLeft, if_pos hp] at hn
      omega
    have hc' : CallInv (lowerEvents s) := { hc with }
    have hd' : CallData (lowerEvents s) := ⟨hd.staged, hd.written⟩
    have hleft := stepsLeft_microOp hc' hp
    have hb' : (microOp s.p (lowerEvents s)).status.st = .busy := by
      rw [microOp_status hp]
      exact hb
    have hpend' : (microOp s.p (lowerEvents s)).pending = [] := by
      rw [microOp_pending]
      exact hpend
    have hn' : stepsLeft (microOp s.p (lowerEvents s)) = n + 1 := by
      have : stepsLeft (lowerEvents s) = stepsLeft s := rfl
      simp only [lowerEvents_p] at hleft
      omega
    obtain ⟨t, ht, he⟩ := ih hc'.after_microOp (hd'.after_microOp hc') hb' hpend' hn'
      (step_of_busy hb' hpend')
    refine ⟨t, (steps_succ (n + 1) hs).trans ht,
      { he with len := ?_, cap := ?_, inMem := ?_, diag := ?_ }⟩
    · rw [he.len, microOp_len, lowerEvents_len]
    · rw [he.cap, microOp_cap, lowerEvents_cap]
    · rw [he.inMem, microOp_inMem, lowerEvents_inMem]
    · rw [he.diag, microOp_diag, lowerEvents_diag]

/-- The end of the call `START L=l CAP=c` that `s` is left alone with: everything of it but S, the
elements of OUT from COUNT on and the history is determined by the operands and the input bytes. -/
structure IsEndOfCall (s : State) (l c : Nat) (t : State) : Prop where
  status : t.status =
    { st := if 4 * (l / 5) ≤ c then .done else .fail
      notice := noticeOf l
      disc := tailOf l
      cause := if 4 * (l / 5) ≤ c then .noCause else .resourceExhausted }
  len : t.len = l
  cap : t.cap = c
  count : t.count = if 4 * (l / 5) ≤ c then 4 * (l / 5) else 0
  k : t.k = if 4 * (l / 5) ≤ c then l / 5 else 0
  p : t.p = if 4 * (l / 5) ≤ c then .fin else .tst
  events : t.events =
    if 4 * (l / 5) ≤ c then { done := true, fail := false, notice := false }
    else { done := false, fail := true, notice := noticeOf l }
  words : ∀ j, j < t.count → (outAt t j).toNat = wordOf (inAt s) j
  diag : t.diag = s.diag ++ if l % 5 = 0 then [] else [{ code := .truncation, disc := tailOf l }]

/-- Without room the START is the whole call (R172). -/
theorem isEndOfCall_of_no_room {s : State} {l c : Nat} (hr : ¬4 * (l / 5) ≤ c) :
    IsEndOfCall s l c (startCall l c { s with pending := [] }) := by
  rw [startCall_spec]
  constructor <;> simp [hr, Nat.not_le.mp hr]

/-- With room the call ends as its registers and its data say at FIN (V6, V8, V9). -/
theorem isEndOfCall_of_endsIn {s t : State} {l c : Nat} (hr : 4 * (l / 5) ≤ c)
    (h : EndsIn (startCall l c { s with pending := [] }) t) : IsEndOfCall s l c t := by
  obtain ⟨hst, hp, hregs, hdata, hevents, hlen, hcap, hin, hdiag⟩ := h
  rw [startCall_len] at hlen
  rw [startCall_cap] at hcap
  rw [startCall_inMem] at hin
  rw [startCall_diag] at hdiag
  have hk : t.k = l / 5 := by rw [hregs.finEnd hp, hlen]
  have hinAt : inAt t = inAt s := by
    funext i
    simp only [inAt, hin]
  have hstatus : t.status = ⟨t.status.st, t.status.notice, t.status.disc, t.status.cause⟩ := rfl
  refine ⟨?_, hlen, hcap, ?_, ?_, ?_, ?_, ?_, hdiag⟩
  · rw [hstatus, hst, hregs.notice, hregs.disc, hregs.cause, hlen, if_pos hr,
      if_pos hr]
  · rw [if_pos hr, hregs.countWords, hp, hk]
    rfl
  · rw [if_pos hr, hk]
  · rw [if_pos hr, hp]
  · rw [if_pos hr, hevents]
  · exact hinAt ▸ hdata.written

/-- A call the HOST leaves alone ends, after the steps of R158. -/
theorem exists_isEndOfCall {s : State} {l c : Nat} (h : CallPremises s l c) :
    ∃ t, steps (callSteps l c) (presentStart s l c) = .next t ∧ IsEndOfCall s l c t := by
  have hs := step_presentStart h
  by_cases hr : 4 * (l / 5) ≤ c
  · have hc : CallInv (startCall l c { s with pending := [] }) :=
      callInv_startCall h.lenFits h.capFits hr
    have hb : (startCall l c { s with pending := [] }).status.st = .busy := by
      rw [startCall_status]
      exact if_pos hr
    have hpend : (startCall l c { s with pending := [] }).pending = [] := startCall_pending ..
    have hn : stepsLeft (startCall l c { s with pending := [] }) = 10 * (l / 5) + 1 + 1 := by
      rw [stepsLeft, startCall_p, startCall_len, startCall_k]
      rfl
    obtain ⟨t, ht, he⟩ := exists_endsIn hc (callData_startCall l c _) hb hpend hn
    refine ⟨t, ?_, isEndOfCall_of_endsIn hr he⟩
    rw [callSteps, if_pos hr, Nat.add_comm 1, steps_succ _ hs]
    exact ht
  · refine ⟨_, ?_, isEndOfCall_of_no_room hr⟩
    rw [callSteps, if_neg hr, steps_succ 0 hs]
    rfl

theorem IsEndOfCall.count_le {s t : State} {l c : Nat} (h : IsEndOfCall s l c t) :
    t.count ≤ 4 * (l / 5) := by
  rw [h.count]
  split <;> omega

/-- The words of a call depend on its input bytes only (R29). -/
theorem IsEndOfCall.outAt_eq {s u t v : State} {l c : Nat} (ht : IsEndOfCall s l c t)
    (hv : IsEndOfCall u l c v) (hin : ∀ i, i < l → inAt s i = inAt u i) {j : Nat}
    (hj : j < t.count) : outAt t j = outAt v j := by
  have hj' : j < v.count := by rw [hv.count, ← ht.count]; exact hj
  have hword := wordOf_congr hin (Nat.lt_of_lt_of_le hj ht.count_le)
  exact BitVec.eq_of_toNat_eq (by rw [ht.words j hj, hv.words j hj', hword])

/-- The records of a call depend on its operands only. -/
theorem IsEndOfCall.diag_drop {s t : State} {l c : Nat} (h : IsEndOfCall s l c t) :
    t.diag.drop s.diag.length =
      if l % 5 = 0 then [] else [{ code := .truncation, disc := tailOf l }] := by
  rw [h.diag, List.drop_left]

end Sys2Proof.Machine

open Sys2Proof Sys2Proof.Machine

/-- Settles O50: both calls end as their operands and input bytes say. -/
theorem callsDoNotDependOnThePast : Obligations.CallsDoNotDependOnThePast := by
  unfold Obligations.CallsDoNotDependOnThePast
  intro s u l c hs hu hin
  obtain ⟨t, hst, ht⟩ := exists_isEndOfCall hs
  obtain ⟨v, huv, hv⟩ := exists_isEndOfCall hu
  exact ⟨t, v, hst, huv, ht.status.trans hv.status.symm, ht.len.trans hv.len.symm,
    ht.cap.trans hv.cap.symm, ht.count.trans hv.count.symm, ht.k.trans hv.k.symm,
    ht.p.trans hv.p.symm, ht.events.trans hv.events.symm, fun j hj => ht.outAt_eq hv hin hj,
    ht.diag_drop.trans hv.diag_drop.symm⟩
end

section
/-! The accesses of the HOST, what a step refuses, and which operation reaches which space (R40,
R57). -/

namespace Sys2Proof.Machine

/-! ### The HOST's writes outside a call's buffers -/

theorem hostAccess_writeIn {i : Nat} {v : Byte} {s : State}
    (h : ¬(s.status.st = .busy ∧ i < s.len)) :
    hostAccess (.writeIn i v) s =
      .next (lowerEvents { s with inMem := Memory.write s.inMem i v }) := by
  simp only [hostAccess, if_neg h]

theorem hostAccess_writeOut {j : Nat} {v : Word16} {s : State}
    (h : ¬(s.status.st = .busy ∧ j < s.cap)) :
    hostAccess (.writeOut j v) s =
      .next (lowerEvents { s with outMem := Memory.write s.outMem j v }) := by
  simp only [hostAccess, if_neg h]

/-! ### Refusals -/

/-- What an access of the HOST is refused for: a buffer of the call that runs (R57). -/
theorem hostAccess_refused {a : HostAccess} {s : State} {r : Refusal}
    (h : hostAccess a s = .refused r) :
    s.status.st = .busy ∧
      ((∃ i v, a = .writeIn i v ∧ i < s.len ∧ r = .hostWritesInputDuringCall) ∨
       (∃ j v, a = .writeOut j v ∧ j < s.cap ∧ r = .hostWritesOutputDuringCall) ∨
       (∃ j, a = .readOut j ∧ j < s.cap ∧ r = .hostReadsOutputDuringCall)) := by
  cases a with
  | writeIn i v =>
    simp only [hostAccess] at h
    split at h
    · next hb => exact ⟨hb.1, .inl ⟨i, v, rfl, hb.2, (Host.Outcome.refused.inj h).symm⟩⟩
    · cases h
  | writeOut j v =>
    simp only [hostAccess] at h
    split at h
    · next hb => exact ⟨hb.1, .inr (.inl ⟨j, v, rfl, hb.2, (Host.Outcome.refused.inj h).symm⟩)⟩
    · cases h
  | readOut j =>
    simp only [hostAccess] at h
    split at h
    · next hb => exact ⟨hb.1, .inr (.inr ⟨j, rfl, hb.2, (Host.Outcome.refused.inj h).symm⟩)⟩
    · cases h
  | readReg r => cases h

/-- A micro-operation answers a next state in every state (R140). -/
theorem exists_next_of_exec_dec (p : SeqPos) (s : State) : ∃ t, exec (dec p) s = .next t := by
  by_cases hb : s.status.st = .busy
  · exact ⟨_, exec_dec_of_busy p hb⟩
  · exact ⟨_, exec_dec_of_not_busy p hb⟩

theorem exists_next_of_engine {s : State} (h : s.pending = [] ∨ s.pending.head? = some .engine) :
    ∃ t, step s = .next t := by
  rcases h with h | h
  · rw [step_of_nil h]
    exact exists_next_of_exec_dec _ _
  · obtain ⟨ms, hp⟩ := List.head?_eq_some_iff.mp h
    rw [step_of_engine hp]
    exact exists_next_of_exec_dec _ _

/-- Every word of the command port is carried out, in BUSY too, where it changes nothing (R103). -/
theorem exists_next_of_start_fits {s : State} {c : Nat} (h : s.pending.head? = some (.start c))
    (hc : c < 2 ^ (2 * s.lenW)) : ∃ t, step s = .next t := by
  obtain ⟨ms, hp⟩ := List.head?_eq_some_iff.mp h
  have hl := cmdLen_fits s.lenW c
  have hcap := (cmdCap_fits_iff s.lenW c).mpr hc
  rw [step_of_start hp]
  by_cases hb : s.status.st = .busy
  · exact ⟨_, exec_start_of_busy (s := { s with pending := ms }) hl hcap hb⟩
  · exact ⟨_, exec_start_of_not_busy (s := { s with pending := ms }) hl hcap hb⟩

/-- What a step is refused for, by whose turn it is. -/
theorem step_refused {s : State} {r : Refusal} (h : step s = .refused r) :
    (∃ a, s.pending.head? = some (.access a) ∧ hostAccess a (takeTurn s) = .refused r) ∨
    (∃ c, s.pending.head? = some (.start c) ∧ 2 ^ (2 * s.lenW) ≤ c ∧
      r = .startOperandTooWide) := by
  cases hp : s.pending with
  | nil =>
    obtain ⟨t, ht⟩ := exists_next_of_engine (.inl hp)
    rw [ht] at h
    cases h
  | cons m ms =>
    have hh : s.pending.head? = some m := by rw [hp]; rfl
    cases m with
    | engine =>
      obtain ⟨t, ht⟩ := exists_next_of_engine (.inr hh)
      rw [ht] at h
      cases h
    | rst =>
      rw [step_of_rst hp] at h
      cases h
    | start c =>
      by_cases hc : c < 2 ^ (2 * s.lenW)
      · obtain ⟨t, ht⟩ := exists_next_of_start_fits hh hc
        rw [ht] at h
        cases h
      · have hc := Nat.not_lt.mp hc
        rw [step_of_start_too_wide hh hc] at h
        exact .inr ⟨c, rfl, hc, (Host.Outcome.refused.inj h).symm⟩
    | access a =>
      have hn : nextTurn s = .access a := by simp only [nextTurn, hp]
      simp only [step, hn] at h
      exact .inl ⟨a, rfl, h⟩

/-! ### The spaces an operation reaches -/

/-- Only an extract changes OUT, and only at its own address (R51). -/
theorem ext_of_outAt_microOp_ne {p : SeqPos} {t : State} {j : Nat}
    (h : outAt (microOp p t) j ≠ outAt t j) :
    (dec p = .ext0 ∧ j = eaOut t.k 0) ∨ (dec p = .ext1 ∧ j = eaOut t.k 1) ∨
    (dec p = .ext2 ∧ j = eaOut t.k 2) ∨ (dec p = .ext3 ∧ j = eaOut t.k 3) := by
  have address {n : Fin 4} (hn : outAt (extractWord n t) j ≠ outAt t j) : j = eaOut t.k n.val := by
    by_contra hj
    exact hn (by rw [outAt_extractWord, if_neg hj])
  cases p with
  | ext0 => exact .inl ⟨rfl, address h⟩
  | ext1 => exact .inr (.inl ⟨rfl, address h⟩)
  | ext2 => exact .inr (.inr (.inl ⟨rfl, address h⟩))
  | ext3 => exact .inr (.inr (.inr ⟨rfl, address h⟩))
  | _ => exact absurd rfl h

/-- No operation changes IN (R40). -/
theorem inMem_of_exec {i : Instr} {s t : State} (h : exec i s = .next t) : t.inMem = s.inMem := by
  rcases exec_next h with ⟨-, rfl⟩ | ⟨l, c, -, -, -, ⟨-, rfl⟩ | ⟨-, rfl⟩⟩ |
    ⟨p, -, ⟨-, rfl⟩ | ⟨-, rfl⟩⟩ <;> simp

theorem outAt_of_exec {i : Instr} {s t : State} {j : Nat} (h : exec i s = .next t)
    (hj : outAt t j ≠ outAt s j) :
    (i = .ext0 ∧ j = eaOut s.k 0) ∨ (i = .ext1 ∧ j = eaOut s.k 1) ∨
    (i = .ext2 ∧ j = eaOut s.k 2) ∨ (i = .ext3 ∧ j = eaOut s.k 3) := by
  rcases exec_next h with ⟨-, rfl⟩ | ⟨l, c, -, -, -, ⟨-, rfl⟩ | ⟨-, rfl⟩⟩ |
    ⟨p, rfl, ⟨-, rfl⟩ | ⟨-, rfl⟩⟩
  · exact absurd rfl hj
  · exact absurd rfl hj
  · exact absurd (by simp only [outAt, startCall_outMem]) hj
  · exact ext_of_outAt_microOp_ne (t := lowerEvents s) hj
  · exact absurd rfl hj

/-- Only an accepted START with a tail writes to DIAG, one record (R102, R174). -/
theorem diag_of_exec {i : Instr} {s t : State} (h : exec i s = .next t) :
    t.diag = s.diag ∨ ∃ l c r, i = .start l c ∧ t.diag = s.diag ++ [r] := by
  rcases exec_next h with ⟨-, rfl⟩ | ⟨l, c, rfl, -, -, ⟨-, rfl⟩ | ⟨-, rfl⟩⟩ |
    ⟨p, -, ⟨-, rfl⟩ | ⟨-, rfl⟩⟩
  · exact .inl rfl
  · exact .inl rfl
  · rw [startCall_diag]
    split
    · exact .inl (List.append_nil _)
    · exact .inr ⟨l, c, _, rfl, rfl⟩
  · exact .inl (microOp_diag _ _)
  · exact .inl rfl

end Sys2Proof.Machine

open Sys2Proof Sys2Proof.Machine

/-- Settles O9: there is no fault, and `step_refused` says what is refused. -/
theorem stepsAlwaysComplete : Obligations.StepsAlwaysComplete := by
  unfold Obligations.StepsAlwaysComplete
  refine ⟨fun s r => (nomatch r), fun s => exists_next_of_engine, fun s r h => ?_⟩
  rcases step_refused h with ⟨a, hp, ha⟩ | hstart
  · obtain ⟨hb, hcase⟩ := hostAccess_refused ha
    exact .inl ⟨hb, a, hp, hcase⟩
  · exact .inr hstart

/-- Settles O27: space by space, from what an operation can have done. -/
theorem spacesAreReachedOnlyAsListed : Obligations.SpacesAreReachedOnlyAsListed := by
  unfold Obligations.SpacesAreReachedOnlyAsListed
  exact fun i s t h =>
    ⟨fun a => by simp only [inAt, inMem_of_exec h], fun j => outAt_of_exec h, diag_of_exec h⟩

/-- Settles O30: every change of a space is a write, which keeps the canonical form. -/
theorem stepKeepsTheMemoryForm : Obligations.StepKeepsTheMemoryForm := by
  unfold Obligations.StepKeepsTheMemoryForm
  exact fun s t => MemoryInv.after_step

/-- Settles O24: an access outside the call's buffers is one write or one read; within them it is
refused. -/
theorem hostOwnsTheSpacesOutsideACall : Obligations.HostOwnsTheSpacesOutsideACall := by
  unfold Obligations.HostOwnsTheSpacesOutsideACall
  refine ⟨fun s i v h => ⟨_, hostAccess_writeIn h, ?_, fun a ha => ?_, rfl⟩,
    fun s j v h => ⟨_, hostAccess_writeOut h, ?_, fun a ha => ?_, rfl⟩,
    fun s j h => hostAccess_readOut h, fun s i v hb hi => if_pos ⟨hb, hi⟩,
    fun s j v hb hj => ⟨if_pos ⟨hb, hj⟩, if_pos ⟨hb, hj⟩⟩⟩
  · rw [inAt_lowerEvents, inAt_write, if_pos rfl]
  · rw [inAt_lowerEvents, inAt_write, if_neg ha]
  · rw [outAt_lowerEvents, outAt_write, if_pos rfl]
  · rw [outAt_lowerEvents, outAt_write, if_neg ha]
end

section
/-! What a call adds to the event history (R32, R50, R51, R55), and the word the HOST reads after
it (R56). -/

namespace Sys2Proof.Machine

/-! ### The accesses of a call up to a position -/

/-- How many of the nine accesses of block K have been made when the position is P. -/
def accessesMade (p : SeqPos) : Nat := if p = .fin then 0 else p.code.toNat - 1

/-- The accesses of a call up to block `k` and position `p`, in the reference order. -/
def accessesUpTo (f : Nat → Byte) (k : Nat) (p : SeqPos) : List HistEvent :=
  (List.range k).flatMap (blockAccesses f) ++ (blockAccesses f k).take (accessesMade p)

/-- The access that the micro-operation at `p` makes in block `k`: none at TST and at FIN. -/
def accessAt (f : Nat → Byte) (k : Nat) (p : SeqPos) : List HistEvent :=
  if p = .tst ∨ p = .fin then [] else (blockAccesses f k)[accessesMade p]?.toList

/-- Between two positions of a block lies the access of the first. -/
theorem accessesUpTo_of_succ (f : Nat → Byte) (k : Nat) {p q : SeqPos} (ht : p ≠ .tst)
    (hf : p ≠ .fin) (hq : accessesMade q = accessesMade p + 1) :
    accessesUpTo f k q = accessesUpTo f k p ++ accessAt f k p := by
  rw [accessesUpTo, hq, List.take_add_one, ← List.append_assoc, accessAt, if_neg (by simp [ht, hf])]
  rfl

/-- The access of EXT3 is the last of its block. -/
theorem accessesUpTo_succ_block (f : Nat → Byte) (k : Nat) :
    accessesUpTo f (k + 1) .tst = accessesUpTo f k .ext3 ++ accessAt f k .ext3 := by
  simp only [accessesUpTo, List.range_succ, List.flatMap_append, List.append_assoc]
  rfl

/-- Each micro-operation goes on by its own access. -/
theorem accessesUpTo_microOp (f : Nat → Byte) {s : State} (hc : CallInv s) :
    accessesUpTo f (microOp s.p s).k (microOp s.p s).p =
      accessesUpTo f s.k s.p ++ accessAt f s.k s.p := by
  cases hp : s.p with
  | tst =>
    by_cases hb : eaIn s.k 5 ≤ s.len
    · have hm : microOp .tst s = setPos .ldb0 s := by simp only [microOp, if_pos hb]
      rw [hm]
      exact (List.append_nil _).symm
    · have hm : microOp .tst s = setPos .fin s := by simp only [microOp, if_neg hb]
      rw [hm]
      exact (List.append_nil _).symm
  | ldb0 | ldb1 | ldb2 | ldb3 | ldb4 | ext0 | ext1 | ext2 =>
    exact accessesUpTo_of_succ f s.k nofun nofun rfl
  | ext3 =>
    have hk : (microOp .ext3 s).k = s.k + 1 := hc.succReg_k (by simp [hp]) (by simp [hp])
    rw [hk]
    exact accessesUpTo_succ_block f s.k
  | fin =>
    have hq : (microOp .fin s).p = .fin := hp
    rw [hq]
    exact (List.append_nil _).symm

/-! ### The history of a call -/

/-- An extract records the write of the reference word (R147 to R150, R104). -/
theorem CallData.hist_extractWord {s : State} (h : CallData s) (ht : s.p ≠ .tst)
    (hf : s.p ≠ .fin) (hfull : 6 ≤ s.p.code.toNat) (n : Fin 4) :
    (extractWord n s).hist = s.hist ++
      [.write (4 * s.k + n.val) (zext16 (wordOf (inAt s) (4 * s.k + n.val)))] := by
  have hword := h.extractWord_toNat ht hf hfull n
  rw [outAt_extractWord, eaOut, if_pos rfl, zext16_lane_toNat] at hword
  rw [extractWord_eq, eaOut, hword]

/-- Each micro-operation but FIN records its own access and nothing else. -/
theorem CallData.hist_microOp {s : State} (h : CallData s) (hfin : s.p ≠ .fin) :
    (microOp s.p s).hist = s.hist ++ accessAt (inAt s) s.k s.p := by
  cases hp : s.p with
  | tst => exact (List.append_nil _).symm
  | ldb0 | ldb1 | ldb2 | ldb3 | ldb4 => rfl
  | ext0 | ext1 | ext2 | ext3 =>
    exact h.hist_extractWord (by simp [hp]) hfin (by rw [hp]; decide) _
  | fin => exact absurd hp hfin

/-- A call the HOST leaves alone, on the input `f`, whose history began with `base`: it has recorded
the accesses up to its position and, at its end, the event DONE. -/
structure CallTrace (base : List HistEvent) (f : Nat → Byte) (s : State) : Prop where
  alone : s.pending = []
  input : inAt s = f
  regs : CallInv s
  data : CallData s
  hist : (s.status.st = .busy ∧ s.hist = base ++ accessesUpTo f s.k s.p) ∨
    (s.status.st = .done ∧ s.p = .fin ∧ s.hist = base ++ accessesUpTo f s.k s.p ++ [.eventDone])

/-- A micro-operation of the call records its own access, or DONE, and keeps the trace. -/
theorem CallTrace.after_microOp {base : List HistEvent} {f : Nat → Byte} {s : State}
    (h : CallTrace base f s) (hb : s.status.st = .busy) : CallTrace base f (microOp s.p s) := by
  obtain ⟨halone, hin, hc, hd, hhist⟩ := h
  have hh : s.hist = base ++ accessesUpTo f s.k s.p := by simpa [hb] using hhist
  refine ⟨by rw [microOp_pending, halone], ?_, hc.after_microOp, hd.after_microOp hc, ?_⟩
  · funext i
    simp only [inAt, microOp_inMem, ← hin]
  · by_cases hp : s.p = .fin
    · rw [hp]
      exact .inr ⟨rfl, hp, congrArg (· ++ [HistEvent.eventDone]) hh⟩
    · refine .inl ⟨by rw [microOp_status hp, hb], ?_⟩
      rw [hd.hist_microOp hp, accessesUpTo_microOp f hc, hh, hin, List.append_assoc]

theorem CallTrace.after_step {base : List HistEvent} {f : Nat → Byte} {s t : State}
    (h : CallTrace base f s) (hs : step s = .next t) : CallTrace base f t := by
  have lowered : CallTrace base f (lowerEvents s) :=
    ⟨h.alone, h.input, { h.regs with }, ⟨h.data.staged, h.data.written⟩, h.hist⟩
  by_cases hb : s.status.st = .busy
  · rw [step_of_busy hb h.alone] at hs
    exact Host.Outcome.next.inj hs ▸ lowered.after_microOp hb
  · rw [step_of_not_busy hb h.alone] at hs
    exact Host.Outcome.next.inj hs ▸ lowered

/-- What every step keeps holds at the end of a run. -/
theorem steps_keep {P : State → Prop} (keep : ∀ {s t}, P s → step s = .next t → P t) {n : Nat}
    {s t : State} (hs : P s) (h : steps n s = .next t) : P t := by
  induction n generalizing s with
  | zero => exact Host.Outcome.next.inj h ▸ hs
  | succ n ih =>
    simp only [steps] at h
    split at h
    · next u hu => exact ih (keep hs hu) h
    · cases h
    · cases h

@[simp] theorem startCall_hist (l c : Nat) (s : State) : (startCall l c s).hist =
    s.hist ++ .cmdStart l c ::
      ((if l % 5 = 0 then [] else [.diag { code := .truncation, disc := tailOf l }]) ++
        if 4 * (l / 5) ≤ c then [] else [.eventFail]) := by
  rw [startCall_spec]

/-- With room the trace of the call begins with its START (R102). -/
theorem callTrace_startCall {l c : Nat} {s : State} (hl : l < 2 ^ s.lenW) (hc : c < 2 ^ s.lenW)
    (hr : 4 * (l / 5) ≤ c) (hp : s.pending = []) :
    CallTrace (startCall l c s).hist (inAt s) (startCall l c s) where
  alone := by rw [startCall_pending, hp]
  input := by
    funext i
    simp only [inAt, startCall_inMem]
  regs := callInv_startCall hl hc hr
  data := callData_startCall l c s
  hist := by
    refine .inl ⟨?_, ?_⟩
    · rw [startCall_status]
      exact if_pos hr
    · rw [startCall_k, startCall_p]
      exact (List.append_nil _).symm

/-- At its end the trace of a call holds the accesses of every block, and DONE. -/
theorem CallTrace.hist_of_done {base : List HistEvent} {f : Nat → Byte} {s : State}
    (h : CallTrace base f s) (hd : s.status.st = .done) :
    s.hist = base ++ (List.range (s.len / 5)).flatMap (blockAccesses f) ++ [.eventDone] := by
  rcases h.hist with ⟨hb, -⟩ | ⟨-, hp, hh⟩
  · rw [hd] at hb
    cases hb
  · have hall (k : Nat) :
        accessesUpTo f k .fin = (List.range k).flatMap (blockAccesses f) := List.append_nil _
    rw [hh, hp, hall, h.regs.finEnd hp]

/-- Without room the START records the whole call (R172). -/
theorem hist_of_no_room {l c : Nat} (s : State) (hr : ¬4 * (l / 5) ≤ c) :
    (startCall l c s).hist = s.hist ++ callHistory (inAt s) l c := by
  rw [startCall_hist, callHistory, if_neg hr, if_neg hr]

/-- With room the call records its START, every access, and DONE. -/
theorem hist_of_room {s t : State} {l c : Nat} (h : CallPremises s l c) (hr : 4 * (l / 5) ≤ c)
    (hs : steps (callSteps l c) (presentStart s l c) = .next t) (ht : IsEndOfCall s l c t) :
    t.hist = s.hist ++ callHistory (inAt s) l c := by
  rw [callSteps, if_pos hr, Nat.add_comm 1, steps_succ _ (step_presentStart h)] at hs
  have trace := steps_keep CallTrace.after_step
    (callTrace_startCall (s := { s with pending := [] }) h.lenFits h.capFits hr rfl) hs
  have hd : t.status.st = .done := by
    rw [ht.status]
    exact if_pos hr
  rw [trace.hist_of_done hd, startCall_hist, ht.len, callHistory, if_pos hr, if_pos hr,
    List.append_nil, List.append_assoc, List.append_assoc, List.cons_append]
  rfl

/-! ### The read after FIN -/

/-- FIN, with the ENGINE's turn named. -/
theorem step_of_fin {s : State} {ms : List HostMove} (hb : s.status.st = .busy) (hp : s.p = .fin)
    (hm : s.pending = .engine :: ms) :
    step s = .next (microOp .fin (lowerEvents { s with pending := ms })) := by
  calc step s
      = exec (dec s.p) { s with pending := ms } := step_of_engine hm
    _ = exec (dec .fin) { s with pending := ms } :=
        congrArg (fun p => exec (dec p) { s with pending := ms }) hp
    _ = .next (microOp .fin (lowerEvents { s with pending := ms })) := exec_dec_of_busy .fin hb

/-- An element of OUT read by the HOST where no call runs (R57). -/
theorem step_of_readOut {s : State} {j : Nat} {ms : List HostMove} (hb : s.status.st ≠ .busy)
    (hm : s.pending = .access (.readOut j) :: ms) :
    step s = .next (giveHost (.out j (outAt s j)) (lowerEvents { s with pending := ms })) := by
  rw [step_of_access hm]
  exact hostAccess_readOut fun h => hb h.1

end Sys2Proof.Machine

open Sys2Proof Sys2Proof.Machine

/-- Settles O49: without room by the START alone, with room by the trace that every step of the call
keeps. -/
theorem callAccessesEachElementOnceInOrder : Obligations.CallAccessesEachElementOnceInOrder := by
  unfold Obligations.CallAccessesEachElementOnceInOrder
  intro s l c h
  by_cases hr : 4 * (l / 5) ≤ c
  · obtain ⟨t, hs, ht⟩ := exists_isEndOfCall h
    exact ⟨t, hs, hist_of_room h hr hs ht⟩
  · refine ⟨_, ?_, hist_of_no_room { s with pending := [] } hr⟩
    rw [callSteps, if_neg hr, steps_succ 0 (step_presentStart h)]
    rfl

/-- Settles O55: FIN leaves OUT, so the word read is the one V8 speaks of. -/
theorem wordsAreReadableAtDone : Obligations.WordsAreReadableAtDone := by
  unfold Obligations.WordsAreReadableAtDone
  intro s j _ hd hb hp hm hj
  have hfin := step_of_fin hb hp hm
  have hread := step_of_readOut (j := j) (ms := [])
    (s := microOp .fin (lowerEvents { s with pending := [.access (.readOut j)] })) nofun rfl
  exact ⟨_, outAt s j, (steps_succ 1 hfin).trans (steps_succ 0 hread), rfl, rfl, hd.written hb j hj⟩
end

section
/-! The encoder and the decoder invert each other (R75, R76, R77). -/

namespace Sys2Proof

open Sys2Proof.Machine

/-! ### Sequencer codes -/

/-- The word of a micro-operation is the code of its position (R77). -/
theorem encode_dec (w : Nat) (p : SeqPos) : encode w (dec p) = .seq p.code := by cases p <;> rfl

/-- A micro-operation is read back from the code of its position. -/
theorem decode_encode_of_engine (w : Nat) {i : Instr} (h : i.agent = .engine) :
    decode (encode w i) = .ok i := by
  obtain ⟨p, rfl⟩ := exists_pos_of_engine h
  rw [encode_dec, decode_pos]

theorem wellFormed_dec (w : Nat) (p : SeqPos) : (dec p).wellFormed w = true := by cases p <;> rfl

/-- A position has no other code than its own (R77). -/
theorem SeqPos.code_of_ofCode {c : BitVec 4} {p : SeqPos} (h : SeqPos.ofCode c = some p) :
    p.code = c := by
  unfold SeqPos.ofCode at h
  split at h <;> cases h
  all_goals
    next hc => exact BitVec.eq_of_toNat_eq hc.symm

/-- What a sequencer code selects is the micro-operation of the position with that code. -/
theorem exists_pos_of_decode_seq {w : Nat} {c : BitVec 4} {i : Instr}
    (h : decode (w := w) (.seq c) = .ok i) : ∃ p : SeqPos, dec p = i ∧ p.code = c := by
  simp only [decode] at h
  split at h
  · next p hp => exact ⟨p, Except.ok.inj h, SeqPos.code_of_ofCode hp⟩
  · cases h

/-! ### Command words -/

theorem wellFormed_start_iff (w l c : Nat) :
    (Instr.start l c).wellFormed w = true ↔ l < 2 ^ w ∧ c < 2 ^ w := by
  rw [Instr.wellFormed, Bool.and_eq_true, fitsLenW_iff, fitsLenW_iff]

/-- Operands that fit are read back from their command word (R75, R84). -/
theorem decode_encode_start {w l c : Nat} (hl : l < 2 ^ w) (hc : c < 2 ^ w) :
    decode (encode w (.start l c)) = .ok (.start l c) := by
  rw [encode, decode, BitVec.toNat_ofNat, Nat.mod_eq_of_lt (cmdWord_fits hl hc),
    decodeCmd_cmdWord c hl]

/-- A command word is made of its two operands. -/
theorem cmdWord_cmdLen_cmdCap (w c : Nat) : cmdWord w (cmdLen w c) (cmdCap w c) = c :=
  Nat.div_add_mod' c (2 ^ w)

/-- A word of the port names a START whose operands fit (R84). -/
theorem wellFormed_decodeCmd {w : Nat} (c : BitVec (2 * w)) :
    (decodeCmd w c.toNat).wellFormed w = true :=
  (wellFormed_start_iff w _ _).mpr ⟨cmdLen_fits w _, (cmdCap_fits_iff w _).mpr c.isLt⟩

theorem encode_decodeCmd {w : Nat} (c : BitVec (2 * w)) :
    encode w (decodeCmd w c.toNat) = .cmd c := by
  rw [decodeCmd, encode, cmdWord_cmdLen_cmdCap, BitVec.ofNat_toNat, BitVec.setWidth_eq]

/-- L is the low half of the command word and CAP its high half (R75). -/
theorem decodeCmd_eq_start_extractLsb' {w : Nat} (c : BitVec (2 * w)) :
    decodeCmd w c.toNat = .start (c.extractLsb' 0 w).toNat (c.extractLsb' w w).toNat := by
  have hcap : cmdCap w c.toNat < 2 ^ w := (cmdCap_fits_iff w _).mpr c.isLt
  rw [BitVec.extractLsb'_toNat, BitVec.extractLsb'_toNat, Nat.shiftRight_zero,
    Nat.shiftRight_eq_div_pow, ← cmdCap, Nat.mod_eq_of_lt hcap, decodeCmd, cmdLen]

end Sys2Proof

open Sys2Proof Sys2Proof.Machine

/-- Settles O1, by the input the operation stands on: the reset input, the command port, or P. -/
theorem decodeOfEncodeIsTheOperation : Obligations.DecodeOfEncodeIsTheOperation := by
  unfold Obligations.DecodeOfEncodeIsTheOperation
  intro w i hi
  cases i with
  | rst => rfl
  | start l c =>
    obtain ⟨hl, hc⟩ := (wellFormed_start_iff w l c).mp hi
    exact decode_encode_start hl hc
  | _ => exact decode_encode_of_engine w rfl

/-- Settles O2, input by input. -/
theorem encodeOfDecodeIsTheWord : Obligations.EncodeOfDecodeIsTheWord := by
  unfold Obligations.EncodeOfDecodeIsTheWord
  intro w o i h
  cases o with
  | pin b =>
    rw [decode] at h
    split at h
    · next hb =>
      subst hb
      cases h
      exact ⟨rfl, rfl⟩
    · cases h
  | cmd c =>
    obtain rfl := Except.ok.inj h
    exact ⟨wellFormed_decodeCmd c, encode_decodeCmd c⟩
  | seq c =>
    obtain ⟨p, rfl, rfl⟩ := exists_pos_of_decode_seq h
    exact ⟨wellFormed_dec w p, encode_dec w p⟩

/-- Settles O4: the two halves of the word are the operands the decoder takes from it. -/
theorem everyCommandWordIsAStart : Obligations.EveryCommandWordIsAStart := by
  unfold Obligations.EveryCommandWordIsAStart
  intro w c
  rw [← decodeCmd_eq_start_extractLsb' c]
  exact ⟨rfl, wellFormed_decodeCmd c⟩

/-- Settles O16, by what START does with operands that do not fit. -/
theorem startRefusesOperandsThatDoNotFit : Obligations.StartRefusesOperandsThatDoNotFit := by
  unfold Obligations.StartRefusesOperandsThatDoNotFit
  exact fun s l c h => execStart_of_not_fits (by omega)
end

section
/-! The words an extract writes have ten bits (R83). -/

namespace Sys2Proof.Machine

/-- An element below 1024 has bits 15:10 zero. -/
theorem extractLsb'_of_toNat_lt {v : Word16} (h : v.toNat < 1024) :
    v.extractLsb' 10 6 = 0#6 := by
  apply BitVec.eq_of_toNat_eq
  rw [BitVec.extractLsb'_toNat, Nat.shiftRight_eq_div_pow, Nat.div_eq_of_lt h]
  rfl

/-- A lane result as an output element is below 1024 (R128, R129). -/
theorem zext16_lane_toNat_lt (n : Fin 4) (hi lo : Byte) :
    (zext16 (lane n hi lo)).toNat < 1024 := by
  rw [zext16_lane_toNat]
  exact lane_lt n hi lo

/-- An extract that changes an element writes a word of ten bits there. -/
theorem outAt_extractWord_toNat_lt {n : Fin 4} {t : State} {j : Nat}
    (h : outAt (extractWord n t) j ≠ outAt t j) : (outAt (extractWord n t) j).toNat < 1024 := by
  rw [outAt_extractWord] at h ⊢
  split at h
  · next hj =>
    rw [if_pos hj]
    exact zext16_lane_toNat_lt n _ _
  · exact absurd rfl h

theorem outAt_microOp_toNat_lt {p : SeqPos} {t : State} {j : Nat}
    (h : outAt (microOp p t) j ≠ outAt t j) : (outAt (microOp p t) j).toNat < 1024 := by
  cases p with
  | ext0 | ext1 | ext2 | ext3 => exact outAt_extractWord_toNat_lt h
  | _ => exact absurd rfl h

/-- Of all the operations only an extract on a BUSY block changes OUT. -/
theorem outAt_toNat_lt_of_exec {i : Instr} {s t : State} {j : Nat} (h : exec i s = .next t)
    (hj : outAt t j ≠ outAt s j) : (outAt t j).toNat < 1024 := by
  rcases exec_next h with ⟨-, rfl⟩ | ⟨l, c, -, -, -, ⟨-, rfl⟩ | ⟨-, rfl⟩⟩ |
    ⟨p, -, ⟨-, rfl⟩ | ⟨-, rfl⟩⟩
  · exact absurd rfl hj
  · exact absurd rfl hj
  · exact absurd (by simp only [outAt, startCall_outMem]) hj
  · exact outAt_microOp_toNat_lt (t := lowerEvents s) hj
  · exact absurd rfl hj

/-- EXT`n` is the micro-operation of a position, and leaves OUT as `extractWord n` does. -/
theorem exists_pos_of_extract (n : Fin 4) :
    ∃ p, #v[Instr.ext0, Instr.ext1, Instr.ext2, Instr.ext3][n] = dec p ∧
      ∀ t a, outAt (microOp p t) a = outAt (extractWord n t) a := by
  fin_cases n
  · exact ⟨.ext0, rfl, fun _ _ => rfl⟩
  · exact ⟨.ext1, rfl, fun _ _ => rfl⟩
  · exact ⟨.ext2, rfl, fun _ _ => rfl⟩
  · exact ⟨.ext3, rfl, fun _ _ => rfl⟩

end Sys2Proof.Machine

open Sys2Proof Sys2Proof.Machine

/-- Settles O28: what an extract writes is a lane, and a lane has ten bits. -/
theorem wordsWrittenHaveTenBits : Obligations.WordsWrittenHaveTenBits := by
  unfold Obligations.WordsWrittenHaveTenBits
  refine ⟨fun s n hb => ?_, fun i s t j h hj => ?_⟩
  · obtain ⟨p, hp, hout⟩ := exists_pos_of_extract n
    rw [hp]
    refine ⟨_, exec_dec_of_busy p hb, extractLsb'_of_toNat_lt ?_⟩
    rw [hout, outAt_extractWord, lowerEvents_k, if_pos rfl]
    exact zext16_lane_toNat_lt n _ _
  · have hlt := outAt_toNat_lt_of_exec h hj
    exact ⟨Nat.le_of_lt_succ hlt, extractLsb'_of_toNat_lt hlt⟩

/-- Settles O33: `NoticesLegal.after_step`, where START's notice is the one new record. -/
theorem stepKeepsNoticesLegal : Obligations.StepKeepsNoticesLegal := by
  unfold Obligations.StepKeepsNoticesLegal
  exact fun s t => NoticesLegal.after_step
end

section
/-! The operations a call performs (R88). -/

namespace Sys2Proof.Machine

/-- The operations a running call has left: the blocks from K on and END, from the position P on. -/
def operationsLeft (s : State) : List Instr :=
  if s.p = .fin then [.fin]
  else ((List.replicate (s.len / 5 - s.k) pseudoBlock).flatten ++ pseudoEnd).drop s.p.code.toNat

/-- Inside a block the rest of it comes first, then the blocks after it and END. -/
theorem operationsLeft_of_open {s : State} (hp : s.p ≠ .fin) (hopen : s.k < s.len / 5) :
    operationsLeft s = pseudoBlock.drop s.p.code.toNat ++
      ((List.replicate (s.len / 5 - (s.k + 1)) pseudoBlock).flatten ++ pseudoEnd) := by
  have hn : s.len / 5 - s.k = s.len / 5 - (s.k + 1) + 1 := by omega
  rw [operationsLeft, if_neg hp, hn, List.replicate_succ, List.flatten_cons, List.append_assoc,
    List.drop_append_of_le_length (code_le s.p)]

/-- Going one position on inside a block performs the operation of the position left. -/
theorem operationsLeft_eq_cons_of_next {s t : State} (hlen : t.len = s.len) (hk : t.k = s.k)
    (hp : s.p ≠ .fin) (hq : t.p ≠ .fin) (hopen : s.k < s.len / 5)
    (hnext : pseudoBlock.drop s.p.code.toNat = dec s.p :: pseudoBlock.drop t.p.code.toNat) :
    operationsLeft s = dec s.p :: operationsLeft t := by
  have hopen' : t.k < t.len / 5 := by rw [hk, hlen]; exact hopen
  rw [operationsLeft_of_open hp hopen, operationsLeft_of_open hq hopen', hlen, hk, hnext,
    List.cons_append]

/-- Each micro-operation but FIN performs the first of the operations left. -/
theorem operationsLeft_microOp {s : State} (hc : CallInv s) (hp : s.p ≠ .fin) :
    operationsLeft s = dec s.p :: operationsLeft (microOp s.p s) := by
  cases hq : s.p with
  | tst =>
    by_cases hb : eaIn s.k 5 ≤ s.len
    · have hm : microOp .tst s = setPos .ldb0 s := by simp only [microOp, if_pos hb]
      rw [eaIn] at hb
      rw [hm, ← hq]
      exact operationsLeft_eq_cons_of_next rfl rfl hp nofun (by omega) (by rw [hq]; rfl)
    · have hm : microOp .tst s = setPos .fin s := by simp only [microOp, if_neg hb]
      have hend : s.len / 5 - s.k = 0 := by rw [eaIn] at hb; omega
      rw [hm, operationsLeft, if_neg hp, hend, hq]
      rfl
  | ldb0 | ldb1 | ldb2 | ldb3 | ldb4 | ext0 | ext1 | ext2 =>
    rw [← hq]
    exact operationsLeft_eq_cons_of_next (by rw [microOp_len]) (by rw [hq]; rfl) hp
      (by rw [hq]; nofun) (hc.blockOpen (by simp [hq]) hp) (by rw [hq]; rfl)
  | ext3 =>
    have hopen := hc.blockOpen (by simp [hq]) hp
    have hks : (microOp .ext3 s).k = s.k + 1 := hc.succReg_k (by simp [hq]) hp
    rw [operationsLeft_of_open hp hopen, hq, ← hks]
    rfl
  | fin => exact absurd hq hp

/-- A running call the HOST leaves alone performs the operations it has left. -/
theorem performed_operationsLeft {is : List Instr} {s : State} (hc : CallInv s)
    (hb : s.status.st = .busy) (hpend : s.pending = []) (his : operationsLeft s = is) :
    performed is.length s = is := by
  induction is generalizing s with
  | nil => rfl
  | cons i is ih =>
    have hs := step_of_busy hb hpend
    rw [List.length_cons, performed_succ _ hs (nextTurn_of_nil hpend)]
    by_cases hp : s.p = .fin
    · rw [operationsLeft, if_pos hp] at his
      obtain ⟨rfl, rfl⟩ := List.cons.inj his
      rw [hp]
      rfl
    · have hc' : CallInv (lowerEvents s) := { hc with }
      have hleft := (operationsLeft_microOp hc' hp).symm.trans his
      obtain ⟨rfl, hrest⟩ := List.cons.inj hleft
      have hb' : (microOp s.p (lowerEvents s)).status.st = .busy := by
        rw [microOp_status hp]
        exact hb
      have hpend' : (microOp s.p (lowerEvents s)).pending = [] := by
        rw [microOp_pending]
        exact hpend
      exact congrArg (dec s.p :: ·) (ih hc'.after_microOp hb' hpend' hrest)

/-- After its START a call has all its blocks and END left (R102). -/
theorem pseudoCall_of_room {l c : Nat} (s : State) (hr : 4 * (l / 5) ≤ c) :
    pseudoCall l c = .start l c :: operationsLeft (startCall l c s) := by
  rw [pseudoCall, if_pos hr, operationsLeft, startCall_p, startCall_len, startCall_k]
  rfl

/-- A call has as many steps as operations (R88, R158). -/
theorem length_pseudoCall (l c : Nat) : (pseudoCall l c).length = callSteps l c := by
  unfold pseudoCall callSteps
  split
  · have hblock : pseudoBlock.length = 10 := rfl
    have hend : pseudoEnd.length = 2 := rfl
    rw [List.length_cons, List.length_append, List.length_flatten, List.map_replicate,
      List.sum_replicate_nat, hblock, hend]
    omega
  · rfl

end Sys2Proof.Machine

open Sys2Proof Sys2Proof.Machine

/-- Settles O48: the START, then with room the operations it leaves to the ENGINE. -/
theorem callPerformsItsSequence : Obligations.CallPerformsItsSequence := by
  unfold Obligations.CallPerformsItsSequence
  intro s l c h
  refine ⟨?_, length_pseudoCall l c⟩
  have hs := step_presentStart h
  have hn := nextTurn_presentStart h
  rw [← length_pseudoCall]
  by_cases hr : 4 * (l / 5) ≤ c
  · have hc : CallInv (startCall l c { s with pending := [] }) :=
      callInv_startCall h.lenFits h.capFits hr
    have hb : (startCall l c { s with pending := [] }).status.st = .busy := by
      rw [startCall_status]
      exact if_pos hr
    rw [pseudoCall_of_room { s with pending := [] } hr, List.length_cons, performed_succ _ hs hn,
      performed_operationsLeft hc hb (startCall_pending ..) rfl]
  · rw [pseudoCall, if_neg hr]
    exact performed_succ 0 hs hn
end

section
/-! The reference function on a list of bytes: its words one by one, and what they depend on
(R104 to R113). -/

namespace Sys2Proof.Machine

/-! ### The words of an input -/

theorem length_unpack_words (bytes : List Byte) :
    (unpack bytes).words.length = 4 * (bytes.length / 5) := by
  rw [unpack, List.length_map, List.length_range, need]

/-- Word `j` of the result is the reference word of the bytes as a function of their index. -/
theorem getElem?_unpack_words {bytes : List Byte} {j : Nat} (hj : j < 4 * (bytes.length / 5)) :
    (unpack bytes).words[j]? = some (wordOf (fun i => bytes.getD i 0) j) := by
  rw [unpack, List.getElem?_map, need, List.getElem?_range hj]
  rfl

/-- The formulas of `UNPACK40` give ten bits, as the lanes do (R128). -/
theorem unpack40_lt (b0 b1 b2 b3 b4 : Byte) (n : Fin 4) : unpack40 b0 b1 b2 b3 b4 n < 1024 := by
  have h := lane_get_eq_unpack40 ⟨b0, b1, b2, b3, b4⟩ n
  exact h ▸ lane_lt n _ _

/-- Every reference word has ten bits (R128). -/
theorem wordOf_lt (f : Nat → Byte) (j : Nat) : wordOf f j < 1024 := unpack40_lt ..

/-- Inputs with as many complete blocks that agree element by element have the same words. -/
theorem unpack_words_congr {a b : List Byte} (hlen : a.length / 5 = b.length / 5)
    (h : ∀ i, i < a.length → a.getD i 0 = b.getD i 0) :
    (unpack a).words = (unpack b).words := by
  rw [unpack, unpack, need, need, ← hlen]
  exact List.map_congr_left fun j hj => wordOf_congr h (List.mem_range.mp hj)

/-- The tail of an input has no part in its words (R107). -/
theorem unpack_words_take_blocks (bytes : List Byte) :
    (unpack (bytes.take (bytes.length - bytes.length % 5))).words = (unpack bytes).words := by
  have hlen : (bytes.take (bytes.length - bytes.length % 5)).length =
      bytes.length - bytes.length % 5 := List.length_take_of_le (Nat.sub_le ..)
  refine unpack_words_congr (by omega) fun i hi => ?_
  rw [List.getD_eq_getElem?_getD, List.getD_eq_getElem?_getD, List.getElem?_take_of_lt (by omega)]

/-! ### The window of a block -/

theorem toNat_append_byte {w : Nat} (v : BitVec w) (b : Byte) :
    (v ++ b).toNat = v.toNat * 256 + b.toNat := by
  rw [BitVec.toNat_append, ← Nat.shiftLeft_add_eq_or_of_lt b.isLt, Nat.shiftLeft_eq]

theorem window_toNat (b0 b1 b2 b3 b4 : Byte) :
    (window b0 b1 b2 b3 b4).toNat =
      (((b0.toNat * 256 + b1.toNat) * 256 + b2.toNat) * 256 + b3.toNat) * 256 + b4.toNat := by
  simp only [window, toNat_append_byte]

theorem field_toNat (v : BitVec 40) (n : Fin 4) :
    (field v n).toNat = v.toNat / 2 ^ (30 - 10 * n.val) % 2 ^ 10 := by
  rw [field, BitVec.toNat_setWidth, BitVec.toNat_ushiftRight, Nat.shiftRight_eq_div_pow]

/-- The formulas of `UNPACK40` are the fields of the window (R127). -/
theorem unpack40_eq_field (b0 b1 b2 b3 b4 : Byte) (n : Fin 4) :
    unpack40 b0 b1 b2 b3 b4 n = (field (window b0 b1 b2 b3 b4) n).toNat := by
  have h0 := b0.isLt
  have h1 := b1.isLt
  have h2 := b2.isLt
  have h3 := b3.isLt
  have h4 := b4.isLt
  rw [field_toNat, window_toNat]
  fin_cases n <;> simp only [unpack40] <;> omega

/-! ### The bit string -/

theorem bitString_concat (bytes : List Byte) (b : Byte) :
    bitString (bytes ++ [b]) = bitString bytes * 256 + b.toNat := by
  rw [bitString, List.foldl_concat, bitString]

/-- Dropping the bits of the last bytes leaves the bit string of the first ones. -/
theorem bitString_append_div (a b : List Byte) :
    bitString (a ++ b) / 2 ^ (8 * b.length) = bitString a := by
  induction b using List.reverseRecOn with
  | nil => rw [List.append_nil, List.length_nil, Nat.mul_zero, Nat.pow_zero, Nat.div_one]
  | append_singleton b x ih =>
    have hx := x.isLt
    have hdrop : bitString (a ++ (b ++ [x])) / 2 ^ 8 = bitString (a ++ b) := by
      rw [← List.append_assoc, bitString_concat]
      omega
    rw [List.length_append, List.length_singleton, Nat.mul_add, Nat.mul_one, Nat.add_comm,
      Nat.pow_add, ← Nat.div_div_eq_div_mul, hdrop, ih]

theorem bitString_take_succ {bytes : List Byte} {m : Nat} (hm : m < bytes.length) :
    bitString (bytes.take (m + 1)) =
      bitString (bytes.take m) * 256 + (bytes.getD m 0).toNat := by
  rw [← List.take_concat_get' _ _ hm, bitString_concat, List.getD_eq_getElem _ _ hm]

/-- The bits from offset `10 * (4 * k + n)` on, after the four words of each block before (R104). -/
theorem bitString_div_eq {bytes : List Byte} {k : Nat} (n : Fin 4) (hk : k < bytes.length / 5) :
    bitString bytes / 2 ^ (8 * bytes.length - 10 * (4 * k + n.val) - 10) =
      bitString (bytes.take (5 * k + 5)) / 2 ^ (30 - 10 * n.val) := by
  have hn := n.isLt
  have hsplit : 8 * bytes.length - 10 * (4 * k + n.val) - 10 =
      8 * (bytes.drop (5 * k + 5)).length + (30 - 10 * n.val) := by
    rw [List.length_drop]
    omega
  have hdiv := bitString_append_div (bytes.take (5 * k + 5)) (bytes.drop (5 * k + 5))
  rw [List.take_append_drop] at hdiv
  rw [hsplit, Nat.pow_add, ← Nat.div_div_eq_div_mul, hdiv]

/-- The bits of the blocks up to block `k` end with the window of that block (R70). -/
theorem bitString_take_block {bytes : List Byte} {k : Nat} (hk : k < bytes.length / 5) :
    bitString (bytes.take (5 * k + 5)) =
      bitString (bytes.take (5 * k)) * 2 ^ 40 +
        (window (bytes.getD (5 * k) 0) (bytes.getD (5 * k + 1) 0) (bytes.getD (5 * k + 2) 0)
          (bytes.getD (5 * k + 3) 0) (bytes.getD (5 * k + 4) 0)).toNat := by
  have byte (i : Nat) (hi : i < 5) :=
    bitString_take_succ (bytes := bytes) (m := 5 * k + i) (by omega)
  rw [byte 4 (by decide), byte 3 (by decide), byte 2 (by decide), byte 1 (by decide),
    ← Nat.add_zero (5 * k), byte 0 (by decide), window_toNat]
  omega

/-- The reference word is the ten bits at its offset in the bit string (R104): what stands before
the block does not reach its fields. -/
theorem wordOf_eq_bits {bytes : List Byte} {k : Nat} (n : Fin 4) (hk : k < bytes.length / 5) :
    wordOf (fun i => bytes.getD i 0) (4 * k + n.val) =
      bitString bytes / 2 ^ (8 * bytes.length - 10 * (4 * k + n.val) - 10) % 2 ^ 10 := by
  rw [bitString_div_eq n hk, bitString_take_block hk, wordOf_block, unpack40_eq_field, field_toNat]
  fin_cases n <;> dsimp only <;> omega

/-! ### Concatenation -/

/-- The words from block `k` on are those of the bytes from block `k` on. -/
theorem wordOf_add_blocks (f : Nat → Byte) (k j : Nat) :
    wordOf f (4 * k + j) = wordOf (fun i => f (5 * k + i)) j := by
  have hdiv : 5 * ((4 * k + j) / 4) = 5 * k + 5 * (j / 4) := by omega
  have hmod : (4 * k + j) % 4 = j % 4 := by omega
  simp only [wordOf, hdiv, hmod, Nat.add_assoc]

/-- After a whole number of blocks the next input's words follow unchanged (R113). -/
theorem unpack_words_append {a : List Byte} (b : List Byte) (ha : a.length % 5 = 0) :
    (unpack (a ++ b)).words = (unpack a).words ++ (unpack b).words := by
  have hlen : a.length = 5 * (a.length / 5) := by omega
  have hneed : need (a ++ b).length = need a.length + need b.length := by
    rw [List.length_append, need, need, need]
    omega
  rw [unpack, hneed, List.range_add, List.map_append, List.map_map]
  refine congrArg₂ (· ++ ·) (List.map_congr_left fun j hj => ?_) (List.map_congr_left fun j _ => ?_)
  · exact wordOf_congr (fun i hi => List.getD_append _ _ _ _ hi) (List.mem_range.mp hj)
  · calc wordOf (fun i => (a ++ b).getD i 0) (need a.length + j)
        = wordOf (fun i => (a ++ b).getD (5 * (a.length / 5) + i) 0) j := wordOf_add_blocks ..
      _ = wordOf (fun i => b.getD i 0) j := by
        congr 1
        funext i
        rw [← hlen, List.getD_append_right _ _ _ _ (Nat.le_add_right ..), Nat.add_sub_cancel_left]

end Sys2Proof.Machine

open Sys2Proof Sys2Proof.Machine

/-- Settles O42: in block `j / 4` the reference word is the bits at its offset, and the formulas are
the fields of the window. -/
theorem wordsAreTheBitsAtTheirOffset : Obligations.WordsAreTheBitsAtTheirOffset := by
  unfold Obligations.WordsAreTheBitsAtTheirOffset
  intro bytes
  refine ⟨length_unpack_words bytes, fun j hj => ?_, fun k n hk => ?_⟩
  · have hword := wordOf_eq_bits (bytes := bytes) (k := j / 4) ⟨j % 4, Nat.mod_lt j (by decide)⟩
      (by omega)
    rw [Nat.div_add_mod] at hword
    rw [getElem?_unpack_words hj, hword]
  · rw [getElem?_unpack_words (by omega), wordOf_block, unpack40_eq_field]

/-- Settles O43: the counts as `UNPACK` says them, the words by what they depend on and their
range. -/
theorem unpackCountsAndReportsTheTail : Obligations.UnpackCountsAndReportsTheTail := by
  unfold Obligations.UnpackCountsAndReportsTheTail
  intro bytes
  refine ⟨length_unpack_words bytes, rfl, fun h => if_pos h, fun h => if_neg h,
    unpack_words_take_blocks bytes, fun w hw => ?_⟩
  obtain ⟨j, -, rfl⟩ := List.mem_map.mp hw
  exact Nat.le_of_lt_succ (wordOf_lt _ j)

/-- Settles O44: the law block by block; one byte and four make a block that neither makes alone. -/
theorem unpackOfAConcatenation : Obligations.UnpackOfAConcatenation := by
  unfold Obligations.UnpackOfAConcatenation
  refine ⟨fun a b ha => ⟨unpack_words_append b ha, ?_, ?_⟩, [0], [0, 0, 0, 0], by decide, by decide⟩
  · simp only [unpack, need, List.length_append]
    omega
  · have htail : (a ++ b).length % 5 = b.length % 5 := by
      rw [List.length_append]
      omega
    simp only [unpack, htail]
end

section
/-! The commands and the reads of the HOST, and what follows a call (R101 to R105, R110). -/

namespace Sys2Proof.Machine

@[simp] theorem startCall_events (l c : Nat) (s : State) : (startCall l c s).events =
    { done := false, fail := decide (c < 4 * (l / 5)), notice := noticeOf l } := by
  rw [startCall_spec]

/-- A read of a result register (R110). -/
theorem hostAccess_readReg (r : ControlReg) (s : State) :
    hostAccess (.readReg r) s = .next (giveHost (.reg r (controlValue r s)) (lowerEvents s)) := rfl

/-- Left alone outside a call, the block stays as it is (R140, R164). -/
theorem steps_of_not_busy {s : State} (n : Nat) (hb : s.status.st ≠ .busy) (hp : s.pending = []) :
    steps (n + 1) s = .next (lowerEvents s) := by
  induction n generalizing s with
  | zero => exact steps_succ 0 (step_of_not_busy hb hp)
  | succ n ih =>
    rw [steps_succ _ (step_of_not_busy hb hp)]
    exact ih (s := lowerEvents s) hb hp

/-- A START of no bytes has room whatever the capacity, and no tail (R105, R189). -/
theorem startCall_empty (c : Nat) (s : State) :
    startCall 0 c s =
      { s with
        k := 0, p := .tst, len := 0, cap := c, count := 0
        status := { st := .busy, notice := false, disc := 0, cause := .noCause }
        events := EventLines.low
        hist := s.hist ++ [.cmdStart 0 c] } := by
  rw [startCall_spec]
  simp [EventLines.low, noticeOf, tailOf]

/-- A call of no bytes: after its START only TST and FIN are left (R105). -/
theorem steps_emptyCall {s : State} {c : Nat} (h : CallPremises s 0 c) :
    steps 3 (presentStart s 0 c) = .next
      { s with
        k := 0, p := .fin, len := 0, cap := c, count := 0
        status := { st := .done, notice := false, disc := 0, cause := .noCause }
        events := { done := true, fail := false, notice := false }
        pending := []
        hist := s.hist ++ [.cmdStart 0 c] ++ [.eventDone] } := by
  have hstart := step_presentStart h
  rw [startCall_empty] at hstart
  calc steps 3 (presentStart s 0 c)
      = steps 2 _ := steps_succ 2 hstart
    _ = steps 1 _ := steps_succ 1 (step_of_busy rfl rfl)
    _ = steps 0 _ := steps_succ 0 (step_of_busy rfl rfl)

end Sys2Proof.Machine

open Sys2Proof Sys2Proof.Machine

/-- Settles O12: START's effect as one update of the state, read field by field. -/
theorem acceptedStartDoesItsStep : Obligations.AcceptedStartDoesItsStep := by
  unfold Obligations.AcceptedStartDoesItsStep
  intro s l c hb hl hc
  refine ⟨startCall l c s, exec_start_of_not_busy hl hc hb, startCall_len .., startCall_cap ..,
    startCall_k .., startCall_p .., startCall_count .., ?_, ?_, fun hr => ?_, fun hr => ?_, ?_, ?_,
    fun ht => ?_, fun ht => ⟨{ code := .truncation, disc := tailOf l }, ?_, rfl, rfl⟩, ?_⟩
  · rw [startCall_status, tailOf_val]
  · rw [startCall_status, noticeOf_iff]
  · simp [hr]
  · simp [hr, Nat.not_le.mpr hr]
  · rw [startCall_events]
  · rw [startCall_events, noticeOf_iff]
  · rw [startCall_diag, if_pos ht, List.append_nil]
  · rw [startCall_diag, if_neg ht]
  · rw [startCall_spec]

/-- Settles O10: RST's effect, read field by field. -/
theorem rstResetsTheRegisters : Obligations.RstResetsTheRegisters := by
  unfold Obligations.RstResetsTheRegisters
  intro s
  exact ⟨record .cmdRst (resetRegisters (lowerEvents s)), rfl, rfl, rfl, rfl, rfl, rfl, rfl, rfl,
    rfl, rfl, rfl, rfl, fun _ => rfl, fun _ => rfl, rfl, rfl, rfl, rfl⟩

/-- Settles O15: of START's two ways with operands that fit, the one of a BUSY block. -/
theorem startWhileBusyIsIgnored : Obligations.StartWhileBusyIsIgnored := by
  unfold Obligations.StartWhileBusyIsIgnored
  exact fun s l c hb hl hc => exec_start_of_busy hl hc hb

/-- Settles O23: the values as they are read; STATUS by its number, which eight bits hold. -/
theorem resultRegistersCanBeReadAtAnyTime : Obligations.ResultRegistersCanBeReadAtAnyTime := by
  unfold Obligations.ResultRegistersCanBeReadAtAnyTime
  intro s
  refine ⟨?_, hostAccess_readReg .len s, hostAccess_readReg .cap s, hostAccess_readReg .count s⟩
  rw [hostAccess_readReg, controlValue, Status.byte_toNat]
  rfl

/-- Settles O54: DONE and FAIL are not BUSY, and outside a call the ENGINE does nothing. -/
theorem resultsHoldUntilTheNextCommand : Obligations.ResultsHoldUntilTheNextCommand := by
  unfold Obligations.ResultsHoldUntilTheNextCommand
  intro s n hst hp
  have hb : s.status.st ≠ .busy := by
    rcases hst with h | h <;> rw [h] <;> nofun
  exact steps_of_not_busy n hb hp

/-- Settles O56: the three steps of the call, and the operations they perform. -/
theorem emptyInputEndsDoneUntouched : Obligations.EmptyInputEndsDoneUntouched := by
  unfold Obligations.EmptyInputEndsDoneUntouched
  intro s c hb hc
  have h : CallPremises s 0 c := ⟨hb, Nat.two_pow_pos _, hc⟩
  have hperf := (callPerformsItsSequence s 0 c h).1
  rw [callSteps, pseudoCall, if_pos (Nat.zero_le c), if_pos (Nat.zero_le c)] at hperf
  exact ⟨hperf, _, steps_emptyCall h, rfl, rfl, rfl, rfl, rfl, List.append_assoc ..⟩
end

section
/-! The block function as a map on windows: shifter, lanes and fields give the same ten bits, and a
window, its five bytes and its four fields determine each other (R120 to R133). -/

namespace Sys2Proof.Machine

/-! ### The shifter and the fields as slices -/

/-- The shared shifter and the lane formula give the same ten bits (R120, R121). -/
theorem bsh_toNat (n : Fin 4) (hi lo : Byte) : (bsh n hi lo).toNat = lane n hi lo := by
  have hhi := hi.isLt
  have hlo := lo.isLt
  rw [bsh, BitVec.toNat_setWidth, BitVec.toNat_ushiftRight, Nat.shiftRight_eq_div_pow,
    toNat_append_byte, lane]
  fin_cases n <;> dsimp only <;> omega

theorem field_eq_extractLsb' (v : BitVec 40) (n : Fin 4) :
    field v n = v.extractLsb' (30 - 10 * n.val) 10 := by
  apply BitVec.eq_of_toNat_eq
  rw [field_toNat, BitVec.extractLsb'_toNat, Nat.shiftRight_eq_div_pow]

/-- A formula of `UNPACK40` is the lane on the two neighbouring bytes of the block (R126). -/
theorem unpack40_eq_lane (b0 b1 b2 b3 b4 : Byte) (n : Fin 4) :
    unpack40 b0 b1 b2 b3 b4 n =
      lane n (#v[b0, b1, b2, b3, b4][n.castSucc]) (#v[b0, b1, b2, b3, b4][n.succ]) := by
  have hget : ∀ i : Fin 5, Staging.get ⟨b0, b1, b2, b3, b4⟩ i = #v[b0, b1, b2, b3, b4][i] := by
    intro i
    fin_cases i <;> rfl
  rw [← hget, ← hget, lane_get_eq_unpack40]
  rfl

/-! ### A window and its five bytes -/

theorem append_inj {w u : Nat} {v v' : BitVec w} {b b' : BitVec u} (h : v ++ b = v' ++ b') :
    v = v' ∧ b = b' := by
  have hlow : b = b' := by
    rw [← BitVec.extractLsb'_append_eq_right (a := v) (b := b), h,
      BitVec.extractLsb'_append_eq_right]
  exact ⟨(BitVec.append_left_inj b).mp (hlow ▸ h), hlow⟩

/-- The window keeps its five bytes apart (R44). -/
theorem window_inj {a0 a1 a2 a3 a4 b0 b1 b2 b3 b4 : Byte}
    (h : window a0 a1 a2 a3 a4 = window b0 b1 b2 b3 b4) :
    a0 = b0 ∧ a1 = b1 ∧ a2 = b2 ∧ a3 = b3 ∧ a4 = b4 := by
  obtain ⟨h, h4⟩ := append_inj h
  obtain ⟨h, h3⟩ := append_inj h
  obtain ⟨h, h2⟩ := append_inj h
  obtain ⟨h0, h1⟩ := append_inj h
  exact ⟨h0, h1, h2, h3, h4⟩

/-- Two neighbouring slices are one slice, with the higher start written as the lower one's end. -/
theorem extractLsb'_append_below {w : Nat} (v : BitVec w) (i n : Nat) {m : Nat} :
    v.extractLsb' (i + n) m ++ v.extractLsb' i n = v.extractLsb' i (m + n) :=
  BitVec.extractLsb'_append_extractLsb'_eq_extractLsb' rfl

/-- Every 40 bits are the window of the five bytes they are cut into (R70). -/
theorem window_extractLsb' (v : BitVec 40) :
    window (v.extractLsb' 32 8) (v.extractLsb' 24 8) (v.extractLsb' 16 8) (v.extractLsb' 8 8)
      (v.extractLsb' 0 8) = v := by
  rw [window, extractLsb'_append_below v 24 8, extractLsb'_append_below v 16 8,
    extractLsb'_append_below v 8 8, extractLsb'_append_below v 0 8, BitVec.extractLsb'_eq_self]

/-! ### A window and its four fields -/

/-- The four fields in order are the whole window (R71). -/
theorem append_fields (v : BitVec 40) : field v 0 ++ field v 1 ++ field v 2 ++ field v 3 = v := by
  simp only [field_eq_extractLsb']
  calc v.extractLsb' 30 10 ++ v.extractLsb' 20 10 ++ v.extractLsb' 10 10 ++ v.extractLsb' 0 10
      = v := by
        rw [extractLsb'_append_below v 20 10, extractLsb'_append_below v 10 10,
          extractLsb'_append_below v 0 10, BitVec.extractLsb'_eq_self]

/-- The fields of four values put together are those values. -/
theorem fields_append (w0 w1 w2 w3 : BitVec 10) :
    field (w0 ++ w1 ++ w2 ++ w3) 0 = w0 ∧ field (w0 ++ w1 ++ w2 ++ w3) 1 = w1 ∧
    field (w0 ++ w1 ++ w2 ++ w3) 2 = w2 ∧ field (w0 ++ w1 ++ w2 ++ w3) 3 = w3 := by
  obtain ⟨h, h3⟩ := append_inj (append_fields (w0 ++ w1 ++ w2 ++ w3))
  obtain ⟨h, h2⟩ := append_inj h
  obtain ⟨h0, h1⟩ := append_inj h
  exact ⟨h0, h1, h2, h3⟩

/-- A window is determined by its fields. -/
theorem eq_of_field_eq {u v : BitVec 40} (h : ∀ n, field u n = field v n) : u = v := by
  rw [← append_fields u, ← append_fields v, h, h, h, h]

/-! ### The bytes a word depends on -/

/-- Inputs that agree on the five bytes of block `k` have the same words in it (R133). -/
theorem wordOf_congr_block {f g : Nat → Byte} {k : Nat}
    (h : ∀ i, i < 5 → f (5 * k + i) = g (5 * k + i)) (n : Fin 4) :
    wordOf f (4 * k + n.val) = wordOf g (4 * k + n.val) := by
  rw [wordOf_block, wordOf_block, h 1 (by decide), h 2 (by decide), h 3 (by decide),
    h 4 (by decide), ← Nat.add_zero (5 * k), h 0 (by decide)]

end Sys2Proof.Machine

open Sys2Proof Sys2Proof.Machine

/-- Settles O38: the formulas are `UNPACK40`, and a field is the window's slice at its place. -/
theorem formulasAreTheFieldsOfTheWindow : Obligations.FormulasAreTheFieldsOfTheWindow := by
  unfold Obligations.FormulasAreTheFieldsOfTheWindow
  intro b0 b1 b2 b3 b4
  have slice (n : Fin 4) : unpack40 b0 b1 b2 b3 b4 n =
      ((window b0 b1 b2 b3 b4).extractLsb' (30 - 10 * n.val) 10).toNat := by
    rw [unpack40_eq_field, field_eq_extractLsb']
  exact ⟨slice 0, slice 1, slice 2, slice 3⟩

/-- Settles O39: the shifter by its value, the block function by its lanes and by its fields. -/
theorem shifterLaneAndBlockFunctionAgree : Obligations.ShifterLaneAndBlockFunctionAgree := by
  unfold Obligations.ShifterLaneAndBlockFunctionAgree
  exact ⟨bsh_toNat, fun n b0 b1 b2 b3 b4 =>
    ⟨unpack40_eq_lane b0 b1 b2 b3 b4 n, unpack40_eq_field b0 b1 b2 b3 b4 n⟩⟩

/-- Settles O40: ten bits for all bytes; with two bytes of ones every lane is all ones. -/
theorem laneResultsHaveTenBits : Obligations.LaneResultsHaveTenBits := by
  unfold Obligations.LaneResultsHaveTenBits
  intro n
  refine ⟨fun hi lo => ⟨Nat.le_of_lt_succ (lane_lt n hi lo), zext16_lane_toNat n hi lo⟩, ?_⟩
  fin_cases n <;> rfl

/-- Settles O41: equal words are equal fields, so equal windows, so equal bytes; and four values put
together are a window that is cut into its five bytes. -/
theorem blockFunctionIsABijection : Obligations.BlockFunctionIsABijection := by
  unfold Obligations.BlockFunctionIsABijection
  refine ⟨fun a0 a1 a2 a3 a4 b0 b1 b2 b3 b4 h => window_inj (eq_of_field_eq fun n => ?_),
    fun w0 w1 w2 w3 => ⟨_, _, _, _, _, window_extractLsb' (w0 ++ w1 ++ w2 ++ w3), ?_⟩⟩
  · apply BitVec.eq_of_toNat_eq
    rw [← unpack40_eq_field, ← unpack40_eq_field, h]
  · obtain ⟨h0, h1, h2, h3⟩ := fields_append w0 w1 w2 w3
    simp only [unpack40_eq_field, window_extractLsb', h0, h1, h2, h3, and_self]

/-- Settles O45: both inputs have the block, and its words are the reference words of its bytes. -/
theorem blocksAreIndependent : Obligations.BlocksAreIndependent := by
  unfold Obligations.BlocksAreIndependent
  intro a b k ha hb h n hn
  rw [getElem?_unpack_words (by omega), getElem?_unpack_words (by omega),
    wordOf_congr_block (fun i hi => ?_) ⟨n, hn⟩]
  rw [List.getD_eq_getElem?_getD, List.getD_eq_getElem?_getD, h i hi]
end

section
/-! The micro-operations on a BUSY block, each as one update of the state (R140 to R151), and the
bounds of their addresses (R154, R161). -/

namespace Sys2Proof.Machine

/-! ### The word an extract writes -/

/-- An extract writes formula `n` of `UNPACK40` on the staged bytes (R147 to R150, R126). -/
theorem outAt_extractWord_toNat (n : Fin 4) (s : State) :
    (outAt (extractWord n s) (eaOut s.k n.val)).toNat =
      unpack40 s.stg.s0 s.stg.s1 s.stg.s2 s.stg.s3 s.stg.s4 n := by
  rw [outAt_extractWord, if_pos rfl, zext16_lane_toNat, lane_get_eq_unpack40]
  rfl

theorem outAt_extractWord_of_ne (n : Fin 4) (s : State) (j : Nat) (h : j ≠ eaOut s.k n.val) :
    outAt (extractWord n s) j = outAt s j := by
  rw [outAt_extractWord, if_neg h]

/-- An extract changes OUT, COUNT and the history, which records the word it has written. -/
theorem extractWord_frame (n : Fin 4) (s : State) :
    extractWord n s =
      { s with
        outMem := (extractWord n s).outMem
        count := succReg s.lenW s.count
        hist := s.hist ++
          [.write (eaOut s.k n.val) (outAt (extractWord n s) (eaOut s.k n.val))] } := by
  rw [outAt_extractWord, if_pos rfl]
  rfl

/-! ### Addresses -/

/-- A load reads below LEN inside a block (R154). -/
theorem CallInv.eaIn_lt {s : State} (h : CallInv s) (ht : s.p ≠ .tst) (hf : s.p ≠ .fin) {i : Nat}
    (hi : i ≤ 4) : eaIn s.k i < s.len := by
  have hk := h.blockOpen ht hf
  rw [eaIn]
  omega

/-- An extract writes below NEED inside a block (R154). -/
theorem CallInv.eaOut_lt {s : State} (h : CallInv s) (ht : s.p ≠ .tst) (hf : s.p ≠ .fin) {n : Nat}
    (hn : n ≤ 3) : eaOut s.k n < 4 * (s.len / 5) := by
  have hk := h.blockOpen ht hf
  rw [eaOut]
  omega

end Sys2Proof.Machine

open Sys2Proof Sys2Proof.Machine

/-- Settles O37: the bounds of the running call, and the addresses inside one of its blocks. -/
theorem addressesAreInBounds : Obligations.AddressesAreInBounds := by
  unfold Obligations.AddressesAreInBounds
  intro s hs hb
  have h := hs.callInv (.inl hb)
  have hk := h.blockBound
  have hn := h.count_le
  refine ⟨hk, hn, by omega, by omega, fun ht hf => ?_, h.lenFits⟩
  refine ⟨fun i => h.eaIn_lt ht hf, fun n hn3 => ?_, h.succReg_k ht hf, h.succReg_count ht hf⟩
  have hlt := h.eaOut_lt ht hf hn3
  exact ⟨hlt, Nat.lt_of_lt_of_le hlt h.room⟩

/-- Settles O8: every operation of the ENGINE is that of a position, and waits for BUSY. -/
theorem engineIdlesUnlessBusy : Obligations.EngineIdlesUnlessBusy := by
  unfold Obligations.EngineIdlesUnlessBusy
  intro s i hi hb
  obtain ⟨p, rfl⟩ := exists_pos_of_engine hi
  exact exec_dec_of_not_busy p hb

/-- Settles O18: a complete block is left exactly where `5*K + 5` is within LEN. -/
theorem tstBranchesOnACompleteBlock : Obligations.TstBranchesOnACompleteBlock := by
  unfold Obligations.TstBranchesOnACompleteBlock
  intro s hb
  have hp : (microOp .tst (lowerEvents s)).p = if 5 * s.k + 5 ≤ s.len then .ldb0 else .fin := rfl
  refine ⟨_, exec_dec_of_busy .tst hb, fun hle => ?_, fun hlt => ?_, ?_, rfl⟩
  · rw [hp, if_pos hle]
  · rw [hp, if_neg (Nat.not_le.mpr hlt)]
  · rw [hp]
    split
    · next hle => exact iff_of_true rfl (by omega)
    · next hlt => exact iff_of_false nofun (by omega)

/-- Settles O19: the load of each position on the BUSY block. -/
theorem loadsStageOneByte : Obligations.LoadsStageOneByte := by
  unfold Obligations.LoadsStageOneByte
  intro s hb
  exact ⟨exec_dec_of_busy .ldb0 hb, exec_dec_of_busy .ldb1 hb, exec_dec_of_busy .ldb2 hb,
    exec_dec_of_busy .ldb3 hb, exec_dec_of_busy .ldb4 hb⟩

/-- Settles O20: the three extracts that go on inside their block. -/
theorem extractsWriteTheirWord : Obligations.ExtractsWriteTheirWord := by
  unfold Obligations.ExtractsWriteTheirWord
  intro s hb
  refine ⟨⟨_, exec_dec_of_busy .ext0 hb, ?_⟩, ⟨_, exec_dec_of_busy .ext1 hb, ?_⟩,
    ⟨_, exec_dec_of_busy .ext2 hb, ?_⟩⟩
  · exact ⟨outAt_extractWord_toNat 0 (lowerEvents s), outAt_extractWord_of_ne 0 (lowerEvents s),
      congrArg (setPos .ext1) (extractWord_frame 0 (lowerEvents s))⟩
  · exact ⟨outAt_extractWord_toNat 1 (lowerEvents s), outAt_extractWord_of_ne 1 (lowerEvents s),
      congrArg (setPos .ext2) (extractWord_frame 1 (lowerEvents s))⟩
  · exact ⟨outAt_extractWord_toNat 2 (lowerEvents s), outAt_extractWord_of_ne 2 (lowerEvents s),
      congrArg (setPos .ext3) (extractWord_frame 2 (lowerEvents s))⟩

/-- Settles O21: the word is written before K is counted up. -/
theorem lastExtractGoesToTheNextBlock : Obligations.LastExtractGoesToTheNextBlock := by
  unfold Obligations.LastExtractGoesToTheNextBlock
  intro s hb
  exact ⟨_, exec_dec_of_busy .ext3 hb, outAt_extractWord_toNat 3 (lowerEvents s),
    outAt_extractWord_of_ne 3 (lowerEvents s),
    congrArg (fun t => setPos .tst (bumpBlock t)) (extractWord_frame 3 (lowerEvents s))⟩

/-- Settles O22: FIN leaves P, K and COUNT, which the invariant determines there. -/
theorem finEndsTheCall : Obligations.FinEndsTheCall := by
  unfold Obligations.FinEndsTheCall
  intro s hb
  refine ⟨_, exec_dec_of_busy .fin hb, rfl, rfl, rfl, fun hs hp => ?_⟩
  have h := hs.callInv (.inl hb)
  have hk := h.finEnd hp
  have hn := h.countWords
  rw [hp, hk] at hn
  exact ⟨congrArg SeqPos.code hp, hk, hn⟩
end

section
/-! The words of the sequencer, and a word placed for the next step (R77, R152; log 4). -/

namespace Sys2Proof

/-- The codes 0 to 10 are codes of positions (R77). -/
theorem SeqPos.exists_code_eq {c : BitVec 4} (h : c.toNat ≤ 10) : ∃ p : SeqPos, p.code = c := by
  have hnamed : ∀ c : BitVec 4, c.toNat ≤ 10 → (SeqPos.ofCode c).isSome := by decide
  obtain ⟨p, hp⟩ := Option.isSome_iff_exists.mp (hnamed c h)
  exact ⟨p, SeqPos.code_of_ofCode hp⟩

/-- What a word is read as is what the decoder reads on the input it belongs to. -/
theorem exists_portWord_of_decodePortWord {w nbits c : Nat} {i : Instr}
    (h : decodePortWord w nbits c = some i) :
    ∃ o : OpWord w, portWord w nbits c = some o ∧ decode o = .ok i := by
  unfold decodePortWord at h
  split at h
  · next o ho =>
    refine ⟨o, ho, ?_⟩
    cases hd : decode o with
    | error e => rw [hd] at h; cases h
    | ok j => rw [hd] at h; exact congrArg Except.ok (Option.some.inj h)
  · cases h

end Sys2Proof

namespace Sys2Proof.Machine

/-! ### Placing a word -/

theorem withFetchWord_of_pin {s : State} {nbits c : Nat}
    (h : portWord s.lenW nbits c = some (.pin 1#1)) :
    s.withFetchWord nbits c = { s with pending := .rst :: s.pending } := by
  simp [State.withFetchWord, placeWord, h]

theorem withFetchWord_of_cmd {s : State} {nbits c : Nat} {b : BitVec (2 * s.lenW)}
    (h : portWord s.lenW nbits c = some (.cmd b)) :
    s.withFetchWord nbits c = { s with pending := .start b.toNat :: s.pending } := by
  simp only [State.withFetchWord, placeWord, h]

theorem withFetchWord_of_seq {s : State} {nbits c : Nat} {p : SeqPos}
    (h : portWord s.lenW nbits c = some (.seq p.code)) :
    s.withFetchWord nbits c =
      { s with
        p := p, status := { s.status with st := .busy }, pending := .engine :: s.pending } := by
  simp only [State.withFetchWord, placeWord, h, SeqPos.ofCode_code]

end Sys2Proof.Machine

open Sys2Proof Sys2Proof.Machine

/-- Settles O5: the codes that select are those of the eleven positions. -/
theorem reservedCodesSelectNothing : Obligations.ReservedCodesSelectNothing := by
  unfold Obligations.ReservedCodesSelectNothing
  refine ⟨fun w c => ⟨fun ⟨i, hi⟩ => ?_, fun hc => ?_⟩, fun s c hc he => ?_⟩
  · obtain ⟨p, -, rfl⟩ := exists_pos_of_decode_seq hi
    exact code_le p
  · obtain ⟨p, rfl⟩ := SeqPos.exists_code_eq hc
    exact ⟨dec p, decode_pos w p⟩
  · have hle := code_le s.p
    rw [he] at hle
    omega

/-- Settles O7, by the input the word belongs to: the step takes the turn that was placed. -/
theorem placedWordRunsInTheNextStep : Obligations.PlacedWordRunsInTheNextStep := by
  unfold Obligations.PlacedWordRunsInTheNextStep
  refine ⟨fun s nbits c i h => ?_, fun _ _ => rfl⟩
  obtain ⟨o, ho, hd⟩ := exists_portWord_of_decodePortWord h
  cases o with
  | pin b =>
    rw [decode] at hd
    split at hd
    · next hb =>
      subst hb
      cases hd
      refine ⟨fun _ => ?_, nofun⟩
      rw [withFetchWord_of_pin ho]
      exact step_of_rst rfl
    · cases hd
  | cmd b =>
    cases hd
    refine ⟨fun _ => ?_, nofun⟩
    rw [withFetchWord_of_cmd ho]
    exact step_of_start rfl
  | seq b =>
    obtain ⟨p, rfl, rfl⟩ := exists_pos_of_decode_seq hd
    refine ⟨fun ha => ?_, fun _ => ⟨p, rfl, ?_⟩⟩
    · cases p <;> cases ha
    · rw [withFetchWord_of_seq ho]
      exact step_of_engine rfl
end

section
/-! A call the HOST leaves alone against the reference function: BUSY until its end, and at the end the
words, the notice and the one event of `UNPACK_CALL` (R108, R158, R162, R163). -/

namespace Sys2Proof.Machine

/-! ### BUSY until the last step -/

/-- A running call the HOST leaves alone is BUSY as long as it has steps left (R158). -/
theorem exists_busy_of_lt_stepsLeft {n : Nat} {s : State} (hc : CallInv s)
    (hb : s.status.st = .busy) (hpend : s.pending = []) (hn : n < stepsLeft s) :
    ∃ t, steps n s = .next t ∧ t.status.st = .busy := by
  induction n generalizing s with
  | zero => exact ⟨s, rfl, hb⟩
  | succ n ih =>
    have hp : s.p ≠ .fin := fun hp => by
      rw [stepsLeft, if_pos hp] at hn
      omega
    have hc' : CallInv (lowerEvents s) := { hc with }
    have hleft : stepsLeft s = stepsLeft (microOp s.p (lowerEvents s)) + 1 :=
      stepsLeft_microOp hc' hp
    rw [steps_succ n (step_of_busy hb hpend)]
    refine ih hc'.after_microOp ?_ ?_ (by omega)
    · rw [microOp_status hp]
      exact hb
    · rw [microOp_pending]
      exact hpend

/-- What the steps of a call after its START do. -/
theorem steps_presentStart {s : State} {l c : Nat} (h : CallPremises s l c) (n : Nat) :
    steps (1 + n) (presentStart s l c) = steps n (startCall l c { s with pending := [] }) := by
  rw [Nat.add_comm, steps_succ n (step_presentStart h)]

/-- With room a call is BUSY for the ENGINE steps of R158. -/
theorem exists_busy_of_room {s : State} {l c n : Nat} (h : CallPremises s l c)
    (hr : 4 * (l / 5) ≤ c) (hn : n < 10 * (l / 5) + 2) :
    ∃ t, steps (1 + n) (presentStart s l c) = .next t ∧ t.status.st = .busy := by
  have hleft : stepsLeft (startCall l c { s with pending := [] }) = 10 * (l / 5) + 2 := by
    rw [stepsLeft, startCall_p, startCall_len, startCall_k]
    rfl
  rw [steps_presentStart h]
  refine exists_busy_of_lt_stepsLeft (callInv_startCall h.lenFits h.capFits hr) ?_
    (startCall_pending ..) (by omega)
  rw [startCall_status]
  exact if_pos hr

/-- Without room a call is FAIL from its START on (R172). -/
theorem exists_fail_of_no_room {s : State} {l c : Nat} (h : CallPremises s l c)
    (hr : ¬4 * (l / 5) ≤ c) (n : Nat) :
    ∃ t, steps (1 + n) (presentStart s l c) = .next t ∧ t.status.st = .fail := by
  have hf : (startCall l c { s with pending := [] }).status.st = .fail := by
    rw [startCall_status]
    exact if_neg hr
  rw [steps_presentStart h]
  cases n with
  | zero => exact ⟨_, rfl, hf⟩
  | succ n => exact ⟨_, steps_of_not_busy n (by rw [hf]; nofun) (startCall_pending ..), hf⟩

/-! ### The elements a call does not write -/

/-- An extract writes below NEED (R161). -/
theorem CallInv.outAt_extractWord {s : State} (h : CallInv s) (ht : s.p ≠ .tst) (hf : s.p ≠ .fin)
    (n : Fin 4) {j : Nat} (hj : 4 * (s.len / 5) ≤ j) : outAt (extractWord n s) j = outAt s j := by
  have hlt := h.eaOut_lt ht hf (n := n.val) (by omega)
  exact outAt_extractWord_of_ne n s j (by omega)

/-- No micro-operation of a call reaches the elements from NEED on (R51). -/
theorem CallInv.outAt_microOp {s : State} (h : CallInv s) {j : Nat} (hj : 4 * (s.len / 5) ≤ j) :
    outAt (microOp s.p s) j = outAt s j := by
  cases hp : s.p with
  | ext0 | ext1 | ext2 | ext3 => exact h.outAt_extractWord (by simp [hp]) (by simp [hp]) _ hj
  | _ => rfl

/-- A call the HOST leaves alone, with OUT as `g` says from NEED on. -/
structure CallRest (g : Nat → Word16) (base : List HistEvent) (f : Nat → Byte) (s : State) :
    Prop where
  trace : CallTrace base f s
  rest : ∀ j, 4 * (s.len / 5) ≤ j → outAt s j = g j

theorem CallRest.after_step {g : Nat → Word16} {base : List HistEvent} {f : Nat → Byte}
    {s t : State} (h : CallRest g base f s) (hs : step s = .next t) : CallRest g base f t := by
  refine ⟨h.trace.after_step hs, fun j hj => ?_⟩
  by_cases hb : s.status.st = .busy
  · rw [step_of_busy hb h.trace.alone] at hs
    cases hs
    rw [microOp_len] at hj
    have hc : CallInv (lowerEvents s) := { h.trace.regs with }
    exact (hc.outAt_microOp hj).trans (h.rest j hj)
  · rw [step_of_not_busy hb h.trace.alone] at hs
    cases hs
    exact h.rest j hj

/-- A call leaves IN, and the elements of OUT beyond its words, as they were (R40, R51). -/
theorem IsEndOfCall.spaces {s t : State} {l c : Nat} (ht : IsEndOfCall s l c t)
    (h : CallPremises s l c) (hs : steps (callSteps l c) (presentStart s l c) = .next t) :
    inAt t = inAt s ∧ ∀ j, t.count ≤ j → outAt t j = outAt s j := by
  have hin : inAt (startCall l c { s with pending := [] }) = inAt s := by
    funext i
    simp only [inAt, startCall_inMem]
  have hout : outAt (startCall l c { s with pending := [] }) = outAt s := by
    funext j
    simp only [outAt, startCall_outMem]
  rw [ht.count]
  by_cases hr : 4 * (l / 5) ≤ c
  · rw [callSteps, if_pos hr, steps_presentStart h] at hs
    have hstart := callTrace_startCall (s := { s with pending := [] }) h.lenFits h.capFits hr rfl
    have hend := steps_keep CallRest.after_step ⟨hstart, fun j _ => congrFun hout j⟩ hs
    rw [if_pos hr, ← ht.len]
    exact ⟨hend.trace.input, hend.rest⟩
  · rw [callSteps, if_neg hr, ← Nat.add_zero 1, steps_presentStart h] at hs
    cases hs
    exact ⟨hin, fun j _ => congrFun hout j⟩

/-! ### The reference function -/

/-- `UNPACK_CALL` field by field, by whether the words fit (R108). -/
theorem unpackCall_eq (bytes : List Byte) (c : Nat) :
    unpackCall bytes c =
      { outcome := if 4 * (bytes.length / 5) ≤ c then .done else .fail
        words := if 4 * (bytes.length / 5) ≤ c then (unpack bytes).words else []
        count := if 4 * (bytes.length / 5) ≤ c then 4 * (bytes.length / 5) else 0
        notice := if bytes.length % 5 = 0 then none else some (bytes.length % 5) } := by
  by_cases hr : 4 * (bytes.length / 5) ≤ c
  · have hfits : ¬need bytes.length > c := Nat.not_lt.mpr hr
    simp only [if_pos hr]
    exact if_neg hfits
  · have hfull : need bytes.length > c := Nat.not_le.mp hr
    simp only [if_neg hr]
    exact if_pos hfull

section

variable (bytes : List Byte) (c : Nat)

theorem unpackCall_outcome :
    (unpackCall bytes c).outcome = if 4 * (bytes.length / 5) ≤ c then .done else .fail := by
  rw [unpackCall_eq]

theorem unpackCall_words :
    (unpackCall bytes c).words =
      if 4 * (bytes.length / 5) ≤ c then (unpack bytes).words else [] := by
  rw [unpackCall_eq]

theorem unpackCall_count :
    (unpackCall bytes c).count =
      if 4 * (bytes.length / 5) ≤ c then 4 * (bytes.length / 5) else 0 := by
  rw [unpackCall_eq]

theorem unpackCall_notice :
    (unpackCall bytes c).notice =
      if bytes.length % 5 = 0 then none else some (bytes.length % 5) := by
  rw [unpackCall_eq]

end

theorem length_inputBytes (s : State) (l : Nat) : (inputBytes s l).length = l := by
  rw [inputBytes, List.length_map, List.length_range]

theorem getD_inputBytes (s : State) {l i : Nat} (hi : i < l) :
    (inputBytes s l).getD i 0 = inAt s i := by
  simp [inputBytes, hi]

/-- The words of the input bytes of a call are the reference words of IN (R108). -/
theorem getElem?_unpackCall_words {s : State} {l c j : Nat}
    (hj : j < (unpackCall (inputBytes s l) c).count) :
    (unpackCall (inputBytes s l) c).words[j]? = some (wordOf (inAt s) j) := by
  rw [unpackCall_count, length_inputBytes] at hj
  rw [unpackCall_words, length_inputBytes]
  split at hj
  · next hr =>
    have hlen := length_inputBytes s l
    rw [if_pos hr, getElem?_unpack_words (by omega),
      wordOf_congr (fun i hi => getD_inputBytes s hi) hj]
  · exact absurd hj (Nat.not_lt_zero j)

/-! ### The end of a call as the reference function says it -/

theorem IsEndOfCall.count_eq {s t : State} {l c : Nat} (h : IsEndOfCall s l c t) :
    t.count = (unpackCall (inputBytes s l) c).count := by
  rw [h.count, unpackCall_count, length_inputBytes]

/-- A tail of the input is reported in STATUS and by one record on DIAG (R174). -/
theorem IsEndOfCall.notice_some {s t : State} {l c d : Nat} (h : IsEndOfCall s l c t)
    (hd : (unpackCall (inputBytes s l) c).notice = some d) :
    t.status.notice = true ∧ t.status.disc.val = d ∧
      ∃ x : DiagRecord, t.diag = s.diag ++ [x] ∧ x.code = .truncation ∧ x.disc.val = d := by
  rw [unpackCall_notice, length_inputBytes] at hd
  split at hd
  · cases hd
  · next hl =>
    cases hd
    have hdiag := h.diag
    rw [if_neg hl] at hdiag
    rw [h.status]
    exact ⟨(noticeOf_iff l).mpr hl, tailOf_val l, _, hdiag, rfl, tailOf_val l⟩

/-- An input of complete blocks is reported as such. -/
theorem IsEndOfCall.notice_none {s t : State} {l c : Nat} (h : IsEndOfCall s l c t)
    (hn : (unpackCall (inputBytes s l) c).notice = none) :
    t.status.notice = false ∧ t.status.disc = 0 ∧ t.diag = s.diag := by
  rw [unpackCall_notice, length_inputBytes] at hn
  split at hn
  · next hl =>
    rw [h.diag, if_pos hl, List.append_nil, h.status]
    exact ⟨by simp [noticeOf, hl], Fin.ext hl, rfl⟩
  · cases hn

/-- The accesses of a block are no events. -/
theorem count_blockAccesses (f : Nat → Byte) (k : Nat) :
    (blockAccesses f k).count .eventDone = 0 ∧ (blockAccesses f k).count .eventFail = 0 := by
  constructor <;> simp [blockAccesses, List.count_eq_zero]

/-- A call raises exactly one of the events DONE and FAIL, once (R163). -/
theorem count_callHistory (f : Nat → Byte) (l c : Nat) :
    (callHistory f l c).count .eventDone + (callHistory f l c).count .eventFail = 1 := by
  have hdone : ((List.range (l / 5)).flatMap (blockAccesses f)).count .eventDone = 0 := by
    simp [List.count_flatMap, Function.comp_def, count_blockAccesses]
  have hfail : ((List.range (l / 5)).flatMap (blockAccesses f)).count .eventFail = 0 := by
    simp [List.count_flatMap, Function.comp_def, count_blockAccesses]
  unfold callHistory
  by_cases hl : l % 5 = 0 <;> by_cases hr : 4 * (l / 5) ≤ c <;> simp [hl, hr, hdone, hfail]

end Sys2Proof.Machine

open Sys2Proof Sys2Proof.Machine

/-- Settles O47: a running call is BUSY as long as it has steps left, and a failed one stays. -/
theorem callTakesTenStepsABlockAndTwo : Obligations.CallTakesTenStepsABlockAndTwo := by
  unfold Obligations.CallTakesTenStepsABlockAndTwo
  intro s l c h
  refine ⟨fun hr => ⟨fun n => exists_busy_of_room h hr, ?_⟩,
    fun hr => exists_fail_of_no_room h (Nat.not_le.mpr hr)⟩
  obtain ⟨t, hs, ht⟩ := exists_isEndOfCall h
  rw [callSteps, if_pos hr] at hs
  refine ⟨t, hs, ?_⟩
  rw [ht.status]
  exact if_pos hr

/-- Settles O46: the end of the call, result by result. -/
theorem callMeetsTheReferenceFunction : Obligations.CallMeetsTheReferenceFunction := by
  unfold Obligations.CallMeetsTheReferenceFunction
  intro s l c h r
  obtain ⟨t, hs, ht⟩ := exists_isEndOfCall h
  obtain ⟨u, hu, hhist⟩ := callAccessesEachElementOnceInOrder s l c h
  obtain rfl : t = u := Host.Outcome.next.inj (hs.symm.trans hu)
  obtain ⟨hin, hrest⟩ := ht.spaces h hs
  have hcount : t.count = r.count := ht.count_eq
  have houtcome : r.outcome = if 4 * (l / 5) ≤ c then .done else .fail := by
    rw [unpackCall_outcome, length_inputBytes]
  refine ⟨t, hs, ?_, ?_, hcount, fun j hj => ?_, hcount ▸ hrest, congrFun hin,
    fun d => ht.notice_some, ht.notice_none, ht.len, ht.cap, ?_⟩
  · rw [ht.status, houtcome]
    split <;> rfl
  · rw [ht.status, houtcome]
    split <;> simp
  · rw [getElem?_unpackCall_words hj, ht.words j (hcount ▸ hj)]
  · rw [hhist, List.drop_left]
    exact count_callHistory (inAt s) l c
end

section
/-! Control: which micro-operation comes next (R154, R156). -/

namespace Sys2Proof.Machine

/-- Two blocks the HOST leaves alone that agree on all that control depends on (R156). -/
structure SameControl (s u : State) : Prop where
  alone : s.pending = [] ∧ u.pending = []
  lenW : s.lenW = u.lenW
  len : s.len = u.len
  k : s.k = u.k
  p : s.p = u.p
  st : s.status.st = u.status.st

theorem SameControl.lowered {s u : State} (h : SameControl s u) :
    SameControl (lowerEvents s) (lowerEvents u) := { h with }

/-- K, P and ST after a micro-operation are a matter of LEN_W, LEN, K, P and ST. -/
theorem SameControl.after_microOp {s u : State} (h : SameControl s u) (p : SeqPos) :
    SameControl (microOp p s) (microOp p u) := by
  obtain ⟨halone, hw, hlen, hk, hp, hst⟩ := h
  constructor
  case alone => simpa only [microOp_pending] using halone
  case lenW => simpa only [microOp_lenW] using hw
  case len => simpa only [microOp_len] using hlen
  case k =>
    cases p with
    | ext3 => exact congrArg₂ succReg hw hk
    | _ => exact hk
  case p =>
    cases p with
    | tst => simp only [microOp, setPos, hk, hlen]
    | fin => exact hp
    | _ => rfl
  case st =>
    cases p with
    | fin => rfl
    | _ => exact hst

theorem SameControl.after_step {s u : State} (h : SameControl s u) :
    ∃ t v, step s = .next t ∧ step u = .next v ∧ SameControl t v := by
  by_cases hb : s.status.st = .busy
  · have hbu : u.status.st = .busy := h.st ▸ hb
    refine ⟨_, _, step_of_busy hb h.alone.1, step_of_busy hbu h.alone.2, ?_⟩
    rw [h.p]
    exact h.lowered.after_microOp u.p
  · have hbu : u.status.st ≠ .busy := h.st ▸ hb
    exact ⟨_, _, step_of_not_busy hb h.alone.1, step_of_not_busy hbu h.alone.2, h.lowered⟩

theorem SameControl.after_steps {s u : State} (h : SameControl s u) (n : Nat) :
    performed n s = performed n u ∧
      ∃ t v, steps n s = .next t ∧ steps n u = .next v ∧ SameControl t v := by
  induction n generalizing s u with
  | zero => exact ⟨rfl, s, u, rfl, rfl, h⟩
  | succ n ih =>
    obtain ⟨t, v, hs, hu, htv⟩ := h.after_step
    obtain ⟨hperf, hend⟩ := ih htv
    rw [performed_succ n hs (nextTurn_of_nil h.alone.1),
      performed_succ n hu (nextTurn_of_nil h.alone.2), hperf, h.p, steps_succ n hs, steps_succ n hu]
    exact ⟨rfl, hend⟩

end Sys2Proof.Machine

open Sys2Proof Sys2Proof.Machine

/-- Settles O51: every step keeps what control depends on alike. -/
theorem controlDoesNotDependOnData : Obligations.ControlDoesNotDependOnData := by
  unfold Obligations.ControlDoesNotDependOnData
  intro s u n hs hu hsp hup hw hlen hk hp
  have h : SameControl s u := ⟨⟨hsp, hup⟩, hw, hlen, hk, hp, hs.trans hu.symm⟩
  obtain ⟨hperf, t, v, ht, hv, htv⟩ := h.after_steps n
  exact ⟨hperf, t, v, ht, hv, htv.k, htv.p, htv.st⟩
end

section
/-! The ten steps of a block as one step (R160). -/

namespace Sys2Proof.Machine

/-! ### A run along given positions -/

/-- The micro-operations at the positions `ps`, one after the other. -/
def runMicroOps : List SeqPos → State → State
  | [], s => s
  | p :: ps, s => runMicroOps ps (microOp p (lowerEvents s))

/-- The positions `ps`, none of them FIN, are those a block in `s` goes through. -/
def Follows : List SeqPos → State → Prop
  | [], _ => True
  | p :: ps, s => s.p = p ∧ p ≠ .fin ∧ Follows ps (microOp p (lowerEvents s))

theorem runMicroOps_append (ps qs : List SeqPos) (s : State) :
    runMicroOps (ps ++ qs) s = runMicroOps qs (runMicroOps ps s) := by
  induction ps generalizing s with
  | nil => rfl
  | cons p ps ih => exact ih _

/-- A BUSY block the HOST leaves alone performs the micro-operations of the positions it follows. -/
theorem steps_of_follows {ps : List SeqPos} {s : State} (hb : s.status.st = .busy)
    (hpend : s.pending = []) (h : Follows ps s) :
    steps ps.length s = .next (runMicroOps ps s) := by
  induction ps generalizing s with
  | nil => rfl
  | cons p ps ih =>
    obtain ⟨rfl, hfin, hrest⟩ := h
    rw [List.length_cons, steps_succ _ (step_of_busy hb hpend)]
    refine ih ?_ ?_ hrest
    · rw [microOp_status hfin]
      exact hb
    · rw [microOp_pending]
      exact hpend

/-! ### The positions of a block -/

/-- TST and the five loads. -/
def loadPositions : List SeqPos := [.tst, .ldb0, .ldb1, .ldb2, .ldb3, .ldb4]

/-- The four extracts. -/
def extractPositions : List SeqPos := [.ext0, .ext1, .ext2, .ext3]

/-- From TST a complete block goes through all ten (R153). -/
theorem follows_block {s : State} (hp : s.p = .tst) (hblock : 5 * s.k + 5 ≤ s.len) :
    Follows (loadPositions ++ extractPositions) s :=
  ⟨hp, nofun, if_pos hblock, nofun, rfl, nofun, rfl, nofun, rfl, nofun, rfl, nofun, rfl, nofun,
    rfl, nofun, rfl, nofun, rfl, nofun, trivial⟩

/-- The five bytes of block K. -/
def blockBytes (s : State) : Staging :=
  { s0 := inAt s (eaIn s.k 0)
    s1 := inAt s (eaIn s.k 1)
    s2 := inAt s (eaIn s.k 2)
    s3 := inAt s (eaIn s.k 3)
    s4 := inAt s (eaIn s.k 4) }

theorem get_blockBytes (s : State) (i : Fin 5) :
    (blockBytes s).get i = inAt s (5 * s.k + i.val) := by
  fin_cases i <;> rfl

/-- The loads stage the bytes of block K (R142 to R146). -/
theorem runMicroOps_loads (s : State) :
    runMicroOps loadPositions s =
      { s with
        stg := blockBytes s, p := .ext0, events := EventLines.low
        hist := (runMicroOps loadPositions s).hist } := by
  simp only [loadPositions, runMicroOps, microOp, loadByte_eq, lowerEvents, setPos, inAt,
    Staging.set]
  rfl

/-- Word `n` of block K, from the staged bytes. -/
def stagedWord (s : State) (n : Fin 4) : Word16 :=
  zext16 (lane n (s.stg.get n.castSucc) (s.stg.get n.succ))

/-- OUT after the four extracts of block K. -/
def writeStaged (s : State) : Memory 16 :=
  Memory.write (Memory.write (Memory.write (Memory.write s.outMem (eaOut s.k 0) (stagedWord s 0))
    (eaOut s.k 1) (stagedWord s 1)) (eaOut s.k 2) (stagedWord s 2)) (eaOut s.k 3) (stagedWord s 3)

/-- With the block's own bytes staged, the extracts write what `BLOCKSTEP` writes. -/
theorem writeStaged_of_stg {s t : State} (hg : t.stg = blockBytes s) (hk : t.k = s.k)
    (hout : t.outMem = s.outMem) : writeStaged t = writeBlock s := by
  have hword (n : Fin 4) : stagedWord t n =
      zext16 (unpack40 (inAt s (eaIn s.k 0)) (inAt s (eaIn s.k 1)) (inAt s (eaIn s.k 2))
        (inAt s (eaIn s.k 3)) (inAt s (eaIn s.k 4)) n) := by
    rw [stagedWord, hg, lane_get_eq_unpack40]
    rfl
  simp only [writeStaged, hword, hk, hout]
  rfl

/-- Counted up by one four times is counted up by four. -/
theorem succReg_four (w x : Nat) :
    succReg w (succReg w (succReg w (succReg w x))) = (x + 4) % 2 ^ w := by
  simp only [succReg, Nat.mod_add_mod]

/-- The extracts write and count the words of the staged bytes and go to the next block (R147 to
R150). -/
theorem runMicroOps_extracts (s : State) :
    runMicroOps extractPositions s =
      { s with
        outMem := writeStaged s, count := (s.count + 4) % 2 ^ s.lenW, k := succReg s.lenW s.k
        p := .tst, events := EventLines.low
        hist := (runMicroOps extractPositions s).hist } := by
  simp only [extractPositions, runMicroOps, microOp, extractWord_eq, lowerEvents, setPos, bumpBlock,
    ← succReg_four, writeStaged, stagedWord]
  rfl

/-- The ten micro-operations of a block do what `BLOCKSTEP` does, but for S, the event lines and the
history. -/
theorem runMicroOps_block {s : State} (hp : s.p = .tst) :
    runMicroOps (loadPositions ++ extractPositions) s =
      { blockStep s with
        stg := blockBytes s, events := EventLines.low
        hist := (runMicroOps (loadPositions ++ extractPositions) s).hist } := by
  have hloads := runMicroOps_loads s
  have hwrite : writeStaged (runMicroOps loadPositions s) = writeBlock s := by
    rw [hloads]
    exact writeStaged_of_stg rfl rfl rfl
  rw [runMicroOps_append, runMicroOps_extracts, hwrite, hloads, blockStep, hp]

end Sys2Proof.Machine

open Sys2Proof Sys2Proof.Machine

/-- Settles O52: a complete block goes through its ten positions. -/
theorem tenStepsAreOneBlockStep : Obligations.TenStepsAreOneBlockStep := by
  unfold Obligations.TenStepsAreOneBlockStep
  intro s hb hpend hp hblock
  have hrun := runMicroOps_block hp
  refine ⟨_, steps_of_follows hb hpend (follows_block hp hblock), ?_, fun i => ?_⟩
  · rw [hrun]
  · rw [hrun]
    exact get_blockBytes s i
end

section
/-! A call in any interleaving with the HOST's turns, step by step, and that it ends (R162, R216,
R217). -/

namespace Sys2Proof.Machine

/-! ### What the HOST's turns of a call can be -/

section

variable {s u : State} {bytes : List Byte} {c n : Nat}

/-- The registers of a running call (R33). -/
theorem CallClaim.callInv (h : CallClaim s bytes c) (hu : DuringCall s n u) : CallInv u :=
  (hu.reachable h.reset).machineInv.control.callInv (.inl hu.busy)

/-- Under the premises no step of the call is refused (R57, R84). -/
theorem CallClaim.exists_next (h : CallClaim s bytes c) (hu : DuringCall s n u) :
    ∃ t, step u = .next t := by
  cases hs : step u with
  | next t => exact ⟨t, rfl⟩
  | fault r => cases r
  | refused r =>
    rcases step_refused hs with ⟨a, hp, ha⟩ | ⟨w, hp, hw, -⟩
    · obtain ⟨ms, hm⟩ := List.head?_eq_some_iff.mp hp
      have hn : nextTurn u = .access a := by simp only [nextTurn, hm]
      obtain ⟨-, ⟨i, v, rfl, hi, -⟩ | ⟨j, v, rfl, hj, -⟩ | ⟨j, rfl, hj, -⟩⟩ :=
        hostAccess_refused ha
      · exact absurd hi (Nat.not_lt.mpr (h.fixed n u i v hu hn))
      · exact absurd hj (Nat.not_lt.mpr ((h.quiet n u j hu).1 v hn))
      · exact absurd hj (Nat.not_lt.mpr ((h.quiet n u j hu).2 hn))
    · exact absurd (h.presentable n u w hu hp) (Nat.not_lt.mpr hw)

/-- A step of a running call is the micro-operation at P, or a turn of the HOST that leaves the
registers of the call alone. -/
theorem CallClaim.step_cases {t : State} (h : CallClaim s bytes c) (hu : DuringCall s n u)
    (hs : step u = .next t) :
    (engineTurn u = true ∧ t = microOp u.p (lowerEvents (takeTurn u))) ∨
    (engineTurn u = false ∧ controlRegs t = controlRegs u) := by
  have host (hn : nextTurn u ≠ .operation (dec u.p)) : engineTurn u = false := by
    rw [← Bool.not_eq_true, engineTurn_iff]
    exact hn
  rcases step_next hs with ⟨hn, -⟩ | ⟨l, c', hn, -, -, ⟨-, rfl⟩ | ⟨hb, -⟩⟩ |
    ⟨hn, ⟨-, rfl⟩ | ⟨hb, -⟩⟩ | ⟨a, hn, ha⟩
  · exact absurd hn (h.noReset n u hu)
  · exact .inr ⟨host (by simp [hn, (dec_ne_start u.p l c').symm]), rfl⟩
  · exact absurd hu.busy hb
  · exact .inl ⟨(engineTurn_iff u).mpr hn, rfl⟩
  · exact absurd hu.busy hb
  · exact .inr ⟨host (by simp [hn]), (controlRegs_hostAccess ha).trans rfl⟩

/-- A turn of the HOST leaves the call running. -/
theorem CallClaim.exists_next_of_host (h : CallClaim s bytes c) (hu : DuringCall s n u)
    (he : engineTurn u = false) :
    ∃ t, step u = .next t ∧ DuringCall s n t ∧ controlRegs t = controlRegs u := by
  obtain ⟨t, hs⟩ := h.exists_next hu
  rcases h.step_cases hu hs with ⟨he', -⟩ | ⟨-, hr⟩
  · rw [he] at he'
    cases he'
  · have hb : t.status.st = .busy := by
      simp only [controlRegs, Prod.mk.injEq] at hr
      obtain ⟨-, -, -, -, -, -, hstatus⟩ := hr
      rw [hstatus, hu.busy]
    have ht := hu.next hs hb
    rw [he] at ht
    exact ⟨t, hs, ht, hr⟩

end

/-! ### The steps to come -/

/-- A turn of the HOST is one of those to come. -/
theorem length_pending_of_host {u t : State} (hs : step u = .next t) (he : engineTurn u = false) :
    u.pending.length = t.pending.length + 1 := by
  rw [pending_of_step hs]
  cases hp : u.pending with
  | nil => simp [engineTurn, hp] at he
  | cons m ms => rfl

/-- The turns of the HOST give way to one of the ENGINE, as there are finitely many (P-FAIR). -/
theorem CallClaim.exists_engineTurn {s : State} {bytes : List Byte} {c : Nat}
    (h : CallClaim s bytes c) {m n : Nat} {u : State} (hu : DuringCall s n u)
    (hm : u.pending.length = m) :
    ∃ m v, steps m u = .next v ∧ v.status.st = .busy ∧ engineTurn v = true := by
  induction m generalizing u with
  | zero =>
    have hp := List.length_eq_zero_iff.mp hm
    exact ⟨0, u, rfl, hu.busy, by simp [engineTurn, hp]⟩
  | succ m ih =>
    by_cases he : engineTurn u = true
    · exact ⟨0, u, rfl, hu.busy, he⟩
    · rw [Bool.not_eq_true] at he
      obtain ⟨t, hs, ht, -⟩ := h.exists_next_of_host hu he
      have := length_pending_of_host hs he
      obtain ⟨k, v, hv, hend⟩ := ih ht (by omega)
      exact ⟨k + 1, v, (steps_succ k hs).trans hv, hend⟩

/-- At most so many steps a running call has left, those of the HOST among them. -/
def turnsLeft (u : State) : Nat := stepsLeft u + u.pending.length

/-- A step of a running call ends it, or leaves it running with fewer steps left. -/
theorem CallClaim.end_or_fewer {s : State} {bytes : List Byte} {c : Nat}
    (h : CallClaim s bytes c) {n : Nat} {u : State} (hu : DuringCall s n u) :
    (∃ n t, CallEnd s n t) ∨ ∃ n t, DuringCall s n t ∧ turnsLeft t < turnsLeft u := by
  by_cases he : engineTurn u = true
  · obtain ⟨t, hs⟩ := h.exists_next hu
    rcases h.step_cases hu hs with ⟨-, rfl⟩ | ⟨he', -⟩
    · by_cases hp : u.p = .fin
      · refine .inl ⟨_, _, .after hu hs (.inl ?_)⟩
        rw [hp]
        rfl
      · refine .inr ⟨_, _, hu.next hs ?_, ?_⟩
        · rw [microOp_status hp]
          exact hu.busy
        · have hc : CallInv (lowerEvents (takeTurn u)) := { h.callInv hu with }
          have hleft : stepsLeft u = stepsLeft (microOp u.p (lowerEvents (takeTurn u))) + 1 :=
            stepsLeft_microOp hc hp
          have htail := List.length_tail (l := u.pending)
          rw [turnsLeft, turnsLeft, pending_of_step hs]
          omega
    · rw [he] at he'
      cases he'
  · rw [Bool.not_eq_true] at he
    obtain ⟨t, hs, ht, hr⟩ := h.exists_next_of_host hu he
    refine .inr ⟨n, t, ht, ?_⟩
    have hpend := length_pending_of_host hs he
    have hleft : stepsLeft t = stepsLeft u := by
      simp only [controlRegs, Prod.mk.injEq] at hr
      obtain ⟨-, hlen, -, -, hk, hp, -⟩ := hr
      rw [stepsLeft, stepsLeft, hlen, hk, hp]
    rw [turnsLeft, turnsLeft, hleft]
    omega

/-- A running call ends. -/
theorem CallClaim.exists_end_of_running {s : State} {bytes : List Byte} {c : Nat}
    (h : CallClaim s bytes c) {n : Nat} {u : State} (hu : DuringCall s n u) :
    ∃ n t, CallEnd s n t := by
  induction hm : turnsLeft u using Nat.strong_induction_on generalizing n u with
  | _ m ih =>
    rcases h.end_or_fewer hu with hend | ⟨n', t, ht, hlt⟩
    · exact hend
    · exact ih _ (hm ▸ hlt) ht rfl

/-- The first step of the call is an accepted START (R102). -/
theorem CallClaim.step_eq {s : State} {bytes : List Byte} {c : Nat} (h : CallClaim s bytes c) :
    step s = .next (startCall bytes.length c (takeTurn s)) := by
  obtain ⟨ms, hp⟩ := List.head?_eq_some_iff.mp h.presents
  rw [step, nextTurn_of_start hp, decodeCmd_cmdWord c h.lenFits]
  exact exec_start_of_not_busy (s := takeTurn s) h.lenFits h.capFits h.idle

theorem CallClaim.exists_end {s : State} {bytes : List Byte} {c : Nat} (h : CallClaim s bytes c) :
    ∃ n t, CallEnd s n t := by
  have hst := congrArg Status.st (startCall_status bytes.length c (takeTurn s))
  by_cases hr : 4 * (bytes.length / 5) ≤ c
  · exact h.exists_end_of_running (.start h.step_eq (hst.trans (if_pos hr)))
  · exact ⟨0, _, .atOnce h.step_eq (.inr (hst.trans (if_neg hr)))⟩

end Sys2Proof.Machine

open Sys2Proof Sys2Proof.Machine

/-- Settles O59: the HOST's turns are finitely many, and so are the ENGINE's steps of a call. -/
theorem callsInAnyInterleavingEnd : Obligations.CallsInAnyInterleavingEnd := by
  unfold Obligations.CallsInAnyInterleavingEnd
  exact fun s bytes c h => ⟨fun n u hu => h.exists_engineTurn hu rfl, h.exists_end⟩
end

section
/-! The entry into failure, the notice of the tail and the event lines of one step (R172, R174, R176,
R189). -/

namespace Sys2Proof.Machine

/-- START reaches no element of IN, with room or without (R102, R172). -/
theorem read_not_mem_hist_startCall (l c : Nat) (s : State) (i : Nat) (v : Byte) :
    .read i v ∉ (startCall l c s).hist.drop s.hist.length := by
  rw [startCall_hist, List.drop_left, List.mem_cons, List.mem_append]
  rintro (hcmd | hnotice | hfail)
  · cases hcmd
  · split at hnotice <;> simp at hnotice
  · split at hfail <;> simp at hfail

/-- The tail is nothing exactly where DISC is 0 (R23). -/
theorem tailOf_eq_zero {l : Nat} (h : l % 5 = 0) : tailOf l = 0 := Fin.ext h

/-- The five bits of a truncation notice: the code 1 in bit 3, the discarded count below it (R79). -/
theorem truncation_bits_toNat (d : Fin 5) :
    (DiagRecord.bits { code := .truncation, disc := d }).toNat = 8 + d.val := by
  have hd := d.isLt
  rw [DiagRecord.bits, BitVec.toNat_ofNat]
  exact Nat.mod_eq_of_lt (by simp only [NoticeCode.code]; omega)

/-- Only FIN raises a line among the micro-operations, DONE (R151, R176). -/
theorem microOp_events (p : SeqPos) (t : State) :
    (microOp p t).events = { t.events with done := decide (p = .fin) || t.events.done } := by
  cases p <;> rfl

/-- An access of the HOST raises no line (R176). -/
theorem events_of_hostAccess {a : HostAccess} {s t : State} (h : hostAccess a s = .next t) :
    t.events = EventLines.low := by
  rcases hostAccess_next h with ⟨i, v, -, -, rfl⟩ | ⟨j, v, -, -, rfl⟩ | ⟨x, rfl⟩ <;> rfl

end Sys2Proof.Machine

open Sys2Proof Sys2Proof.Machine

/-- Settles O17: `L div 5 = 0` needs no room. -/
theorem emptyOutputNeverFails : Obligations.EmptyOutputNeverFails := by
  unfold Obligations.EmptyOutputNeverFails
  intro s l c hb h4 hl hc
  have hr : 4 * (l / 5) ≤ c := by omega
  refine ⟨_, exec_start_of_not_busy hl hc hb, ?_⟩
  rw [startCall_status]
  exact if_pos hr

/-- Settles O13: START's effect without room; in FAIL the ENGINE has no step. -/
theorem startFailsWithoutRoom : Obligations.StartFailsWithoutRoom := by
  unfold Obligations.StartFailsWithoutRoom
  intro s l c hb hl hc hroom
  have hr : ¬4 * (l / 5) ≤ c := Nat.not_le.mpr hroom
  have hst : (startCall l c s).status.st = .fail := by
    rw [startCall_status]
    exact if_neg hr
  have hidle : (startCall l c s).status.st ≠ .busy := by rw [hst]; nofun
  refine ⟨_, exec_start_of_not_busy hl hc hb, hst, ?_, ?_, startCall_len .., startCall_cap .., ?_, ?_,
    startCall_count .., startCall_k .., startCall_p .., startCall_inMem .., startCall_outMem ..,
    read_not_mem_hist_startCall l c s, fun i hi => engineIdlesUnlessBusy _ i hi hidle⟩
  · rw [startCall_status]
    exact if_neg hr
  · rw [startCall_events]
    exact decide_eq_true hroom
  · rw [startCall_status, tailOf_val]
  · rw [startCall_status, noticeOf_iff]

/-- Settles O14: the three forms are functions of the tail alone, ST is one of the room alone. -/
theorem startEmitsTheNoticeOfItsTail : Obligations.StartEmitsTheNoticeOfItsTail := by
  unfold Obligations.StartEmitsTheNoticeOfItsTail
  intro s l c hb hl hc
  have hst : (startCall l c s).status.st = if 4 * (l / 5) ≤ c then .busy else .fail := by
    rw [startCall_status]
  refine ⟨_, exec_start_of_not_busy hl hc hb, fun ht => ?_, fun ht => ?_, ?_⟩
  · have hn := (noticeOf_iff l).mpr ht
    rw [startCall_diag, if_neg ht, startCall_events, startCall_status]
    exact ⟨⟨_, rfl, rfl, rfl, truncation_bits_toNat _⟩, hn, hn, rfl⟩
  · have hn : noticeOf l = false := Bool.eq_false_iff.mpr fun h => (noticeOf_iff l).mp h ht
    rw [startCall_diag, if_pos ht, startCall_events, startCall_status]
    exact ⟨List.append_nil _, hn, hn, tailOf_eq_zero ht⟩
  · rw [hst]
    by_cases hr : 4 * (l / 5) ≤ c
    · simp [hr]
    · simp [hr, Nat.not_le.mp hr]

/-- Settles O29: of the branches of `step_next` only an accepted START and FIN of a BUSY block raise a
line; in every other the lines are low and the turn is none that raises one. -/
theorem eventLinesAreHighForOneStep : Obligations.EventLinesAreHighForOneStep := by
  unfold Obligations.EventLinesAreHighForOneStep
  intro s t hs
  rcases step_next hs with ⟨hn, rfl⟩ | ⟨l, c, hn, -, -, ⟨hb, rfl⟩ | ⟨hb, rfl⟩⟩ |
    ⟨hn, ⟨hb, rfl⟩ | ⟨hb, rfl⟩⟩ | ⟨a, hn, ha⟩
  · simp [hn, EventLines.low]
  · simp [hn, hb, EventLines.low]
  · rw [startCall_events, startCall_status]
    refine ⟨by simp [hn], by simp [hn, hb], by simp [hn, hb, noticeOf_iff], nofun, fun hfail => ?_,
      fun hnotice => ⟨hnotice, (noticeOf_iff_tailOf l).mp hnotice⟩⟩
    have hr : ¬4 * (l / 5) ≤ c := Nat.not_le.mpr (of_decide_eq_true hfail)
    exact ⟨if_neg hr, if_neg hr⟩
  · rw [microOp_events]
    refine ⟨by simp [hn, hb, dec_eq_fin_iff, EventLines.low], by simp [hb, EventLines.low],
      by simp [hb, EventLines.low], fun hdone => ?_, nofun, nofun⟩
    have hp : s.p = .fin := by simpa [EventLines.low] using hdone
    rw [hp]
    rfl
  · simp [hn, hb, dec_ne_start, dec_eq_fin_iff, EventLines.low]
  · simp [hn, events_of_hostAccess ha, EventLines.low]
end

section
/-! A call in any interleaving with the HOST's turns against the reference function: what every
state of the running call keeps of its START, and what its end is (R158, R163, R217). -/

namespace Sys2Proof.Machine

/-! ### The running call -/

/-- `u` is a state of the call `START L=l CAP=c` that `s` began, `n` ENGINE steps later: the
operands, the ENGINE steps left (R158), what no step of the call reaches, and that no end of it is
recorded. -/
structure CallSoFar (s : State) (l c n : Nat) (u : State) : Prop where
  len : u.len = l
  cap : u.cap = c
  left : n + stepsLeft u = 10 * (l / 5) + 2
  input : ∀ i, i < l → inAt u i = inAt s i
  rest : ∀ j, 4 * (l / 5) ≤ j → j < c → outAt u j = outAt s j
  diag : u.diag = s.diag ++ if l % 5 = 0 then [] else [{ code := .truncation, disc := tailOf l }]
  hist : ∃ x, u.hist = s.hist ++ x ∧ .eventDone ∉ x ∧ .eventFail ∉ x

section

variable {s u t : State} {l c n : Nat}

/-- What is kept so far is a matter of the registers, the call's elements, DIAG and the history. -/
theorem CallSoFar.congr (h : CallSoFar s l c n u) (hr : controlRegs t = controlRegs u)
    (hin : ∀ i, i < u.len → inAt t i = inAt u i)
    (hout : ∀ j, j < u.cap → outAt t j = outAt u j)
    (hdiag : t.diag = u.diag) (hhist : t.hist = u.hist) : CallSoFar s l c n t := by
  simp only [controlRegs, Prod.mk.injEq] at hr
  obtain ⟨-, hlen, hcap, -, hk, hp, -⟩ := hr
  rw [h.len] at hin
  rw [h.cap] at hout
  have hleft : stepsLeft t = stepsLeft u := by rw [stepsLeft, stepsLeft, hlen, hk, hp]
  exact {
    len := hlen.trans h.len
    cap := hcap.trans h.cap
    left := hleft ▸ h.left
    input := fun i hi => (hin i hi).trans (h.input i hi)
    rest := fun j hj hjc => (hout j hjc).trans (h.rest j hj hjc)
    diag := hdiag.trans h.diag
    hist := hhist ▸ h.hist }

/-- An accepted START with room has all its ENGINE steps to come (R102, R158). -/
theorem callSoFar_startCall (l c : Nat) (s : State) (hr : 4 * (l / 5) ≤ c) :
    CallSoFar s l c 0 (startCall l c s) where
  len := startCall_len l c s
  cap := startCall_cap l c s
  left := by
    rw [stepsLeft, startCall_p, startCall_len, startCall_k, Nat.zero_add]
    rfl
  input i _ := by simp only [inAt, startCall_inMem]
  rest j _ _ := by simp only [outAt, startCall_outMem]
  diag := startCall_diag l c s
  hist := by
    refine ⟨_, startCall_hist l c s, ?_, ?_⟩ <;> by_cases hl : l % 5 = 0 <;> simp [hl, hr]

/-- Only FIN records an end of the call (R151). -/
theorem exists_hist_microOp {p : SeqPos} (hp : p ≠ .fin) (u : State) :
    ∃ x, (microOp p u).hist = u.hist ++ x ∧ .eventDone ∉ x ∧ .eventFail ∉ x := by
  cases p with
  | tst => exact ⟨[], (List.append_nil _).symm, nofun, nofun⟩
  | ldb0 | ldb1 | ldb2 | ldb3 | ldb4 | ext0 | ext1 | ext2 | ext3 =>
    exact ⟨[_], rfl, by simp, by simp⟩
  | fin => exact absurd rfl hp

/-- An ENGINE step of the call that is not its last. -/
theorem CallSoFar.after_microOp (h : CallSoFar s l c n u) (hc : CallInv u) (hp : u.p ≠ .fin) :
    CallSoFar s l c (n + 1) (microOp u.p u) where
  len := (microOp_len ..).trans h.len
  cap := (microOp_cap ..).trans h.cap
  left := by
    have hone := stepsLeft_microOp hc hp
    have hleft := h.left
    omega
  input i hi := by
    rw [← h.input i hi]
    simp only [inAt, microOp_inMem]
  rest j hj hjc := (hc.outAt_microOp (h.len.symm ▸ hj)).trans (h.rest j hj hjc)
  diag := (microOp_diag ..).trans h.diag
  hist := by
    obtain ⟨x, hx, hxd, hxf⟩ := h.hist
    obtain ⟨y, hy, hyd, hyf⟩ := exists_hist_microOp hp u
    exact ⟨x ++ y, by rw [hy, hx, List.append_assoc], by simp [hxd, hyd], by simp [hxf, hyf]⟩

/-- An access of the HOST that has a meaning while BUSY keeps off the elements of the call (R57). -/
theorem CallSoFar.after_hostAccess {a : HostAccess} (h : CallSoFar s l c n u)
    (hb : u.status.st = .busy) (ha : hostAccess a u = .next t) : CallSoFar s l c n t := by
  rcases hostAccess_next ha with ⟨i, v, -, hi, rfl⟩ | ⟨j, v, -, hj, rfl⟩ | ⟨x, rfl⟩
  · refine h.congr rfl (fun m hm => ?_) (fun _ _ => rfl) rfl rfl
    have : m ≠ i := fun e => hi ⟨hb, e ▸ hm⟩
    rw [inAt_lowerEvents, inAt_write, if_neg this]
  · refine h.congr rfl (fun _ _ => rfl) (fun m hm => ?_) rfl rfl
    have : m ≠ j := fun e => hj ⟨hb, e ▸ hm⟩
    rw [outAt_lowerEvents, outAt_write, if_neg this]
  · exact h.congr rfl (fun _ _ => rfl) (fun _ _ => rfl) rfl rfl

/-- Taking the turn and lowering the lines are no part of a call. -/
theorem CallSoFar.lowered (h : CallSoFar s l c n u) :
    CallSoFar s l c n (lowerEvents (takeTurn u)) :=
  h.congr rfl (fun _ _ => rfl) (fun _ _ => rfl) rfl rfl

end

theorem engineTurn_eq_false {s : State} (h : nextTurn s ≠ .operation (dec s.p)) :
    engineTurn s = false := by
  rw [← Bool.not_eq_true, engineTurn_iff]
  exact h

/-- A step of the claimed call, the HOST's or the ENGINE's, after which it still runs. -/
theorem CallClaim.callSoFar_of_step {s u t : State} {bytes : List Byte} {c n : Nat}
    (h : CallClaim s bytes c) (hu : DuringCall s n u) (hs : step u = .next t)
    (hb : t.status.st = .busy) (hf : CallSoFar s bytes.length c n u) :
    CallSoFar s bytes.length c (n + (engineTurn u).toNat) t := by
  have hc : CallInv (lowerEvents (takeTurn u)) := { h.callInv hu with }
  rcases step_next hs with ⟨hn, -⟩ | ⟨l, c', hn, -, -, ⟨-, rfl⟩ | ⟨hb', -⟩⟩ |
    ⟨hn, ⟨-, rfl⟩ | ⟨hb', -⟩⟩ | ⟨a, hn, ha⟩
  · exact absurd hn (h.noReset n u hu)
  · rw [engineTurn_eq_false (by simp [hn, (dec_ne_start u.p l c').symm])]
    exact hf.lowered
  · exact absurd hu.busy hb'
  · have hp : u.p ≠ .fin := fun hp => by
      rw [hp] at hb
      cases hb
    rw [(engineTurn_iff u).mpr hn]
    exact hf.lowered.after_microOp hc hp
  · exact absurd hu.busy hb'
  · have ht : CallSoFar s bytes.length c n (takeTurn u) :=
      hf.congr rfl (fun _ _ => rfl) (fun _ _ => rfl) rfl rfl
    rw [engineTurn_eq_false (by simp [hn])]
    exact ht.after_hostAccess hu.busy ha

/-- The START of the claimed call leaves it running where its words have room, and failed where they
have none (R102). -/
theorem CallClaim.st_of_start {s t : State} {bytes : List Byte} {c : Nat}
    (h : CallClaim s bytes c) (hs : step s = .next t) :
    t.status.st = if 4 * (bytes.length / 5) ≤ c then .busy else .fail := by
  rw [h.step_eq] at hs
  cases hs
  rw [startCall_status]

/-- Every state of the claimed call keeps what its START began. -/
theorem CallClaim.callSoFar {s u : State} {bytes : List Byte} {c n : Nat} (h : CallClaim s bytes c)
    (hu : DuringCall s n u) : CallSoFar s bytes.length c n u := by
  induction hu with
  | start hs hb =>
    have hr : 4 * (bytes.length / 5) ≤ c := by
      by_contra hr
      have hst := h.st_of_start hs
      rw [if_neg hr, hb] at hst
      cases hst
    rw [h.step_eq] at hs
    cases hs
    exact { callSoFar_startCall bytes.length c (takeTurn s) hr with }
  | next hu hs hb ih => exact h.callSoFar_of_step hu hs hb ih

/-! ### The end of the call -/

/-- The end of the call in any interleaving: that of a call left alone, after the ENGINE steps of
R158, with the elements that are not its words as they were, and one event (R163). -/
structure IsEndOfClaim (s : State) (l c n : Nat) (t : State) : Prop
    extends IsEndOfCall s l c t where
  engineSteps : n = if 4 * (l / 5) ≤ c then 10 * (l / 5) + 2 else 0
  input : ∀ i, i < l → inAt t i = inAt s i
  rest : ∀ j, t.count ≤ j → j < c → outAt t j = outAt s j
  oneEvent :
    (t.hist.drop s.hist.length).count .eventDone + (t.hist.drop s.hist.length).count .eventFail = 1

/-- Without room the START is the whole call, and reaches no element (R172). -/
theorem isEndOfClaim_of_no_room {l c : Nat} (s : State) (hr : ¬4 * (l / 5) ≤ c) :
    IsEndOfClaim s l c 0 (startCall l c (takeTurn s)) where
  toIsEndOfCall := by
    rw [startCall_spec]
    constructor <;> simp [hr, Nat.not_le.mp hr]
  engineSteps := (if_neg hr).symm
  input i _ := by simp only [inAt, startCall_inMem, takeTurn_inMem]
  rest j _ _ := by simp only [outAt, startCall_outMem, takeTurn_outMem]
  oneEvent := by
    rw [hist_of_no_room _ hr, takeTurn_hist, List.drop_left]
    exact count_callHistory (inAt (takeTurn s)) l c

/-- At FIN the registers and the data of the call are those of its end (R33, V6, V8, V10). -/
theorem CallSoFar.isEndOfCall {s u : State} {l c n : Nat} (h : CallSoFar s l c n u)
    (hc : CallInv u) (hd : CallData u) (hp : u.p = .fin) (he : u.events = EventLines.low) :
    IsEndOfCall s l c (microOp .fin u) := by
  have hr : 4 * (l / 5) ≤ c := by
    rw [← h.len, ← h.cap]
    exact hc.room
  have hk : u.k = l / 5 := by rw [hc.finEnd hp, h.len]
  have hcount : u.count = 4 * (l / 5) := by
    rw [hc.countWords, hp, hk]
    rfl
  refine ⟨?_, h.len, h.cap, hcount.trans (if_pos hr).symm, hk.trans (if_pos hr).symm,
    hp.trans (if_pos hr).symm, ?_, fun j hj => ?_, h.diag⟩
  · rw [if_pos hr, if_pos hr, ← h.len, ← hc.notice, ← hc.disc, ← hc.cause]
    rfl
  · rw [if_pos hr, microOp_events, he]
    rfl
  · have hj' : j < u.count := hj
    exact (hd.written j hj').trans (wordOf_congr h.input (hcount ▸ hj'))

/-- With room the call ends in the FIN that is the last of its ENGINE steps (R151, R158). -/
theorem CallSoFar.isEndOfClaim {s u : State} {l c n : Nat} (h : CallSoFar s l c n u)
    (hc : CallInv u) (hd : CallData u) (hp : u.p = .fin) (he : u.events = EventLines.low) :
    IsEndOfClaim s l c (n + 1) (microOp .fin u) := by
  have hend := h.isEndOfCall hc hd hp he
  have hr : 4 * (l / 5) ≤ c := by
    rw [← h.len, ← h.cap]
    exact hc.room
  have hcount := hend.count
  rw [if_pos hr] at hcount
  refine { hend with
    engineSteps := ?_
    input := h.input
    rest := fun j hj => h.rest j (hcount ▸ hj)
    oneEvent := ?_ }
  · have hleft := h.left
    rw [stepsLeft, if_pos hp] at hleft
    rw [if_pos hr, hleft]
  · obtain ⟨x, hx, hxd, hxf⟩ := h.hist
    have hhist : (microOp .fin u).hist = s.hist ++ (x ++ [.eventDone]) := by
      rw [← List.append_assoc, ← hx]
      rfl
    rw [hhist, List.drop_left]
    simp [List.count_eq_zero.mpr hxd, List.count_eq_zero.mpr hxf]

theorem Ended.not_busy {s : State} (h : Ended s) : s.status.st ≠ .busy := by
  rcases h with hd | hf
  · rw [hd]
    nofun
  · rw [hf]
    nofun

/-- The claimed call ends in its START or in its FIN, as R163 says. -/
theorem CallClaim.isEndOfClaim {s t : State} {bytes : List Byte} {c n : Nat}
    (h : CallClaim s bytes c) (he : CallEnd s n t) : IsEndOfClaim s bytes.length c n t := by
  cases he with
  | atOnce hs hend =>
    have hr : ¬4 * (bytes.length / 5) ≤ c := fun hr => by
      have hst := h.st_of_start hs
      rw [if_pos hr] at hst
      exact hend.not_busy hst
    rw [h.step_eq] at hs
    cases hs
    exact isEndOfClaim_of_no_room s hr
  | @after n u _ hu hs hend =>
    have hnot : t.status ≠ u.status := fun e => hend.not_busy (e ▸ hu.busy)
    rcases h.step_cases hu hs with ⟨he, rfl⟩ | ⟨-, hr⟩
    · have hp : u.p = .fin := by
        by_contra hp
        exact hnot (microOp_status hp _)
      have hd := (hu.reachable h.reset).machineInv.data.callData hu.busy
      rw [he, hp]
      exact (h.callSoFar hu).lowered.isEndOfClaim { h.callInv hu with } ⟨hd.staged, hd.written⟩ hp
        rfl
    · simp only [controlRegs, Prod.mk.injEq] at hr
      obtain ⟨-, -, -, -, -, -, hstatus⟩ := hr
      exact absurd hstatus hnot

/-- P-INPUT: the given bytes are the input bytes of the call. -/
theorem PInput.eq_inputBytes {s : State} {bytes : List Byte} (h : PInput s bytes) :
    bytes = inputBytes s bytes.length := by
  refine List.ext_getElem (length_inputBytes s bytes.length).symm fun i hi _ => ?_
  have hbyte := h i hi
  rw [List.getElem?_eq_getElem hi] at hbyte
  simpa [inputBytes] using hbyte

end Sys2Proof.Machine

open Sys2Proof Sys2Proof.Machine

/-- Settles O58: every state of the running call keeps what its START began, and so its end is that
of a call left alone. -/
theorem callsInAnyInterleavingMeetTheReference :
    Obligations.CallsInAnyInterleavingMeetTheReference := by
  unfold Obligations.CallsInAnyInterleavingMeetTheReference
  intro s bytes c h r n t he
  have ht := h.isEndOfClaim he
  have hr : r = unpackCall (inputBytes s bytes.length) c :=
    congrArg (unpackCall · c) h.input.eq_inputBytes
  have houtcome : r.outcome = if 4 * (bytes.length / 5) ≤ c then .done else .fail :=
    unpackCall_outcome bytes c
  have hcount : t.count = r.count := hr ▸ ht.count_eq
  refine ⟨?_, ?_, ?_, hcount, fun j hj => ?_, hcount ▸ ht.rest, ht.input,
    fun d hd => ht.notice_some (hr ▸ hd), fun hn => ht.notice_none (hr ▸ hn), ht.len, ht.cap,
    ht.oneEvent⟩
  · rw [ht.engineSteps, houtcome]
    split <;> rfl
  · rw [ht.status, houtcome]
    split <;> rfl
  · rw [ht.status, houtcome]
    split <;> simp
  · rw [ht.words j (hcount ▸ hj), hr, getElem?_unpackCall_words (hr ▸ hj)]
end

section
/-! Reset and what it abandons (R201, R203), and a stream fed in two calls (R210). -/

open Sys2Proof Sys2Proof.Machine

/-- Settles O57: the concatenation law, cut where the first part is whole blocks. -/
theorem streamCutAtABlockBoundary : Obligations.StreamCutAtABlockBoundary := by
  unfold Obligations.StreamCutAtABlockBoundary
  intro bytes m hm
  have hlen : (bytes.take (5 * m)).length % 5 = 0 := by
    rw [List.length_take_of_le hm, Nat.mul_mod_right]
  obtain ⟨hwords, -, hnotice⟩ :=
    unpackOfAConcatenation.1 (bytes.take (5 * m)) (bytes.drop (5 * m)) hlen
  rw [List.take_append_drop] at hwords hnotice
  exact ⟨if_pos hlen, hwords.symm, hnotice.symm⟩

/-- Settles O11: the registers as reset leaves them; in IDLE the ENGINE's turns change nothing. -/
theorem resetStateWaitsForStart : Obligations.ResetStateWaitsForStart := by
  unfold Obligations.ResetStateWaitsForStart
  intro w r
  refine ⟨rfl, rfl, rfl, rfl, rfl, rfl, rfl, rfl, rfl, fun n => ?_⟩
  cases n with
  | zero => rfl
  | succ n => exact steps_of_not_busy n nofun rfl

/-- Settles O53: RST reaches neither space, so the words counted until then stay the ones of V8. -/
theorem rstAbandonsACall : Obligations.RstAbandonsACall := by
  unfold Obligations.RstAbandonsACall
  intro s _ hd hb
  exact ⟨record .cmdRst (resetRegisters (lowerEvents s)), rfl, rfl, rfl, rfl, rfl, hd.written hb,
    fun _ _ => rfl⟩
end

section
/-! Words written out from the encodings (R75, R76, R77). -/

open Sys2Proof

/-- Settles O3: the two command words are the encoder's words of START L=7 CAP=4, and each sequencer
code is the code of its position. -/
theorem wordsWrittenOutDecode : Obligations.WordsWrittenOutDecode := by
  unfold Obligations.WordsWrittenOutDecode
  have hstart {w : Nat} (hw : 7 < 2 ^ w) : decode (encode w (.start 7 4)) = .ok (.start 7 4) :=
    decode_encode_start hw (by omega)
  have h32 : encode 32 (.start 7 4) = .cmd 0x0000000400000007#64 := rfl
  have h3 : encode 3 (.start 7 4) = .cmd 0b100111#6 := rfl
  refine ⟨h32 ▸ hstart (by decide), h3 ▸ hstart (by decide), fun w => ⟨rfl, ?_⟩⟩
  exact ⟨decode_pos w .tst, decode_pos w .ldb0, decode_pos w .ldb1, decode_pos w .ldb2,
    decode_pos w .ldb3, decode_pos w .ldb4, decode_pos w .ext0, decode_pos w .ext1,
    decode_pos w .ext2, decode_pos w .ext3, decode_pos w .fin⟩
end
